-- ==== Sys2Proof/Word.lean ====
section
/-! DEFINITION. The two value types (10_state.md R22 to R24): Bit, and the bus of n Bits (log 15). -/

namespace Sys2Proof

/-- R22: a two-valued element, `false` for `0` (low) and `true` for `1` (high). There is no third value. -/
abbrev Bit := Bool

/-- R23, R24, R41: `n` Bits indexed 0 to `n-1`, index 0 the least significant. A wrong width is a type error (R25). -/
abbrev Bus (n : Nat) := BitVec n

/-- R24: a two-bit result, or the selector of a 4-way operation. -/
abbrev Bits2 := Bus 2
/-- R24: the selector of an 8-way operation. -/
abbrev Bits3 := Bus 3
/-- R24: the branches of `dmux4way`. -/
abbrev Bits4 := Bus 4
/-- R24: the input of `or8way`, the branches of `dmux8way`. -/
abbrev Bits8 := Bus 8
/-- R23: the word bus of exactly sixteen Bits. -/
abbrev Bits16 := Bus 16

end Sys2Proof
end

