-- ==== Sys2Proof/Machine/Bus.lean ====
section
/-! DEFINITION. Bus indexing and construction (00_scope.md R11), the named constants (10_state.md R26), and the caller's
conversions between buses and numbers (20_memory.md R42 to R44, 44_laws_and_structure.md R137). -/

namespace Sys2Proof

/-- R11: `v[i]`, the Bit at index `i` of a bus. Every use of it has `i` below the width. -/
def Bus.at {n : Nat} (v : Bus n) (i : Nat) : Bit := v.getLsbD i

/-- R11, R13: the bus whose Bit at index `i` is `f i`; `for i in 0..n-1` is `n` parallel copies of `f`. -/
def Bus.build : (n : Nat) → (Nat → Bit) → Bus n
  | 0, _ => BitVec.nil
  | n + 1, f => BitVec.cons (f n) (Bus.build n f)

/-- R11: the array literal `[b0, b1, ...]`, index 0 first. -/
def Bus.lit (bits : List Bit) : Bus bits.length := BitVec.ofBoolListLE bits

/-- R11: the sub-bus of the `len` indices from `lo` upward, re-indexed from 0. -/
def Bus.sub {n : Nat} (v : Bus n) (lo len : Nat) : Bus len := Bus.build len fun j => Bus.at v (lo + j)

/-- The bus whose low indices are those of `lo` and whose high indices are those of `hi`. -/
def Bus.join {m n : Nat} (lo : Bus m) (hi : Bus n) : Bus (m + n) :=
  Bus.build (m + n) fun i => if i < m then Bus.at lo i else Bus.at hi (i - m)

/-- R48: the Bits of a bus, index 0 first. -/
def Bus.bits {n : Nat} (v : Bus n) : List Bit := (List.range n).map (Bus.at v)

/-- The bus of these `n` Bits, index 0 first. R25: there is none of any other number. -/
def Bus.ofBits {n : Nat} (bits : List Bit) (h : bits.length = n) : Bus n := (Bus.lit bits).cast h

/-- A 1-bit output as a bus of one Bit (R28). -/
def Bus.one (b : Bit) : Bus 1 := Bus.lit [b]

/-- R26. -/
def zero16 : Bits16 := Bus.build 16 fun _ => false

/-- R26: index 0 is `1`, indices 1 to 15 are `0`. -/
def one16 : Bits16 := Bus.build 16 fun i => decide (i = 0)

/-- R42: `encode_n(u)`, for `u` below `2^n` (log 20). The caller's, not an operation. -/
def encodeNat (n u : Nat) : Bus n := Bus.build n fun i => decide (u / 2 ^ i % 2 = 1)

/-- The number that the Bits of `v` at indices below `k` stand for. -/
def decodeBelow {n : Nat} (v : Bus n) : Nat → Nat
  | 0 => 0
  | k + 1 => decodeBelow v k + (Bus.at v k).toNat * 2 ^ k

/-- R43: `decode(v)`, the sum of `v[i] * 2^i`. The caller's, not an operation. -/
def decodeNat {n : Nat} (v : Bus n) : Nat := decodeBelow v n

/-- R44: the selector value `k` of a selector bus. -/
def selectorValue {n : Nat} (sel : Bus n) : Nat := decodeNat sel

/-- R137: `sdecode(v)`, the two's-complement reading of a word. -/
def sdecode (v : Bits16) : Int :=
  if Bus.at v 15 then (decodeNat v : Int) - 65536 else (decodeNat v : Int)

end Sys2Proof
end

