-- ==== Sys2Proof/Machine/Gates.lean ====
section
/-! DEFINITION. The 21 operations as functions of settled input values, each written by its recipe (files 40 to 43).
R10, R76, R77: `Gate.nand` is the only definition that uses the Bit type's own connectives; every other one mentions only
operations, bus indexing, bus construction and the constants of R26. -/

namespace Sys2Proof

/-! Layer L0 -/

/-- R75: `0` when both inputs are `1`, else `1`. -/
def Gate.nand (a b : Bit) : Bit := !(a && b)

/-! Layer L1 -/

/-- R81. -/
def Gate.not (a : Bit) : Bit := Gate.nand a a

/-- R82. -/
def Gate.and (a b : Bit) : Bit := Gate.not (Gate.nand a b)

/-- R83. -/
def Gate.or (a b : Bit) : Bit := Gate.nand (Gate.not a) (Gate.not b)

/-- R84. -/
def Gate.nor (a b : Bit) : Bit := Gate.not (Gate.or a b)

/-- R85. -/
def Gate.xor (a b : Bit) : Bit := Gate.and (Gate.nand a b) (Gate.or a b)

/-- R86: the select term is the first argument of both `and` instances. -/
def Gate.mux (a b sel : Bit) : Bit := Gate.or (Gate.and (Gate.not sel) a) (Gate.and sel b)

/-- R87. -/
def Gate.dmux (x sel : Bit) : Bits2 := Bus.lit [Gate.and (Gate.not sel) x, Gate.and sel x]

/-! Layer L2 -/

/-- R101. -/
def Gate.not16 (x : Bits16) : Bits16 := Bus.build 16 fun i => Gate.not (Bus.at x i)

/-- R102. -/
def Gate.and16 (a b : Bits16) : Bits16 := Bus.build 16 fun i => Gate.and (Bus.at a i) (Bus.at b i)

/-- R103. -/
def Gate.or16 (a b : Bits16) : Bits16 := Bus.build 16 fun i => Gate.or (Bus.at a i) (Bus.at b i)

/-- R104: one scalar select fans out to all lanes. -/
def Gate.mux16 (a b : Bits16) (sel : Bit) : Bits16 := Bus.build 16 fun i => Gate.mux (Bus.at a i) (Bus.at b i) sel

/-- R105, R110: the balanced tree, neighbouring indices paired. -/
def Gate.or8way (x : Bits8) : Bit :=
  Gate.or
    (Gate.or (Gate.or (Bus.at x 0) (Bus.at x 1)) (Gate.or (Bus.at x 2) (Bus.at x 3)))
    (Gate.or (Gate.or (Bus.at x 4) (Bus.at x 5)) (Gate.or (Bus.at x 6) (Bus.at x 7)))

/-- R106, R110: `sel[0]` at the leaves, `sel[1]` at the root. -/
def Gate.mux4way16 (a b c d : Bits16) (sel : Bits2) : Bits16 :=
  Gate.mux16 (Gate.mux16 a b (Bus.at sel 0)) (Gate.mux16 c d (Bus.at sel 0)) (Bus.at sel 1)

/-- R107, R110. -/
def Gate.mux8way16 (a b c d e f g h : Bits16) (sel : Bits3) : Bits16 :=
  Gate.mux16 (Gate.mux4way16 a b c d (Bus.sub sel 0 2)) (Gate.mux4way16 e f g h (Bus.sub sel 0 2)) (Bus.at sel 2)

/-- R108, by the spec's decision D7 (log 9): the high selector bit next to `x`. -/
def Gate.dmux4way (x : Bit) (sel : Bits2) : Bits4 :=
  let root := Gate.dmux x (Bus.at sel 1)
  Bus.join (Gate.dmux (Bus.at root 0) (Bus.at sel 0)) (Gate.dmux (Bus.at root 1) (Bus.at sel 0))

/-- R109, by the spec's decision D7 (log 9). -/
def Gate.dmux8way (x : Bit) (sel : Bits3) : Bits8 :=
  let root := Gate.dmux x (Bus.at sel 2)
  Bus.join (Gate.dmux4way (Bus.at root 0) (Bus.sub sel 0 2)) (Gate.dmux4way (Bus.at root 1) (Bus.sub sel 0 2))

/-! Layer L3 -/

/-- R123: `[sum, carry]`. -/
def Gate.halfAdder (a b : Bit) : Bits2 := Bus.lit [Gate.xor a b, Gate.and a b]

/-- R124: `[sum, carry]`; `half_adder` is no stage of it (R121). -/
def Gate.fullAdder (a b c : Bit) : Bits2 :=
  Bus.lit [Gate.xor (Gate.xor a b) c, Gate.or (Gate.or (Gate.and a b) (Gate.and b c)) (Gate.and c a)]

/-- R122, R125: the first `n` stages of the ripple, from index 0 upward: their sum bits and the carry `c_n`. -/
def Gate.ripple (a b : Bits16) : (n : Nat) → Bus n × Bit
  | 0 => (Bus.build 0 fun _ => false, false)
  | n + 1 =>
    let below := Gate.ripple a b n
    let stage := Gate.fullAdder (Bus.at a n) (Bus.at b n) below.2
    (BitVec.cons (Bus.at stage 0) below.1, Bus.at stage 1)

/-- R125: sixteen stages; the carry `c_16` goes nowhere. -/
def Gate.add16 (a b : Bits16) : Bits16 := (Gate.ripple a b 16).1

/-- R126. -/
def Gate.inc16 (a : Bits16) : Bits16 := Gate.add16 a one16

end Sys2Proof
end

