-- ==== Sys2Proof/Syntax/Operation.lean ====
section
/-! DEFINITION. The 21 operations by name (00_scope.md R2, 30_encoding.md R55), and what can drive an input pin (R64). -/

namespace Sys2Proof

/-- R2, R55: the 21 operations, in the order of their index (R57). -/
inductive Op where
  | nand | not | and | or | nor | xor | mux | dmux
  | not16 | and16 | or16 | mux16 | or8way | mux4way16 | mux8way16 | dmux4way | dmux8way
  | halfAdder | fullAdder | add16 | inc16
deriving DecidableEq, Repr

/-- R64(1): the one driver of an input pin or of a bit of an output port. Wires are followed bit by bit (log 8). -/
inductive Driver where
  /-- The constant `0` or `1`, a wire tied permanently to the level (10_state.md R26, D11). -/
  | const (b : Bit)
  /-- Bit `j` of the netlist's input port number `p`. -/
  | port (p j : Nat)
  /-- Output pin `j` of instance number `k` of the netlist, counted from 0. -/
  | cell (k j : Nat)
deriving DecidableEq, Repr

/-- The drivers of an input port of width `n`, index 0 first. R25: the width is part of the type. -/
structure Pins (n : Nat) where
  drivers : List Driver
  width : drivers.length = n
deriving DecidableEq, Repr

/-- A named port and its width (10_state.md R28, 30_encoding.md R64). -/
structure Port where
  name : String
  width : Nat
deriving DecidableEq, Repr

/-- One list of wires (or of what they carry) for each of a row of ports of widths `ws`, index 0 first. R25: each is exactly
as long as its port is wide, so a wrong width cannot be built (log 11). -/
structure Ports (α : Type) (ws : List Nat) where
  lists : List (List α)
  widths : lists.map List.length = ws
deriving DecidableEq, Repr

end Sys2Proof
end

