-- ==== Sys2Proof/Machine/Ports.lean ====
section
/-! DEFINITION. Taking one port out of a row of ports (10_state.md R25, R28). The widths are in the types, so there is nothing to
check: `k` is a place in the row `ws`, and the port there is as wide as the row says. -/

namespace Sys2Proof

/-- What stands at port number `k`, index 0 first. -/
def Ports.list {α : Type} {ws : List Nat} (p : Ports α ws) (k : Nat) : List α := p.lists[k]?.getD []

theorem Ports.list_length {α : Type} {ws : List Nat} {n : Nat} (p : Ports α ws) {k : Nat} (h : ws[k]? = some n) :
    (p.list k).length = n := by
  rw [← p.widths, List.getElem?_map] at h
  cases hk : p.lists[k]? <;> simp_all [Ports.list]

/-- The one wire of a 1-bit port. -/
def Ports.one {α : Type} {ws : List Nat} (p : Ports α ws) (k : Nat) (h : ws[k]? = some 1 := by rfl) : α :=
  (p.list k).head (List.ne_nil_of_length_pos (by rw [p.list_length h]; exact Nat.one_pos))

/-- The drivers of a bus port. -/
def Ports.pins {ws : List Nat} {n : Nat} (p : Ports Driver ws) (k : Nat) (h : ws[k]? = some n := by rfl) : Pins n :=
  ⟨p.list k, p.list_length h⟩

/-- The value on a bus port. -/
def Ports.bus {ws : List Nat} {n : Nat} (p : Ports Bit ws) (k : Nat) (h : ws[k]? = some n := by rfl) : Bus n :=
  Bus.ofBits (p.list k) (p.list_length h)

end Sys2Proof
end

