-- ==== Sys2Proof/Syntax.lean ====
section
/-! DEFINITION. One instance of an operation: one constructor per row of spec/opcode_table.json, its fields the drivers of
the operation's input ports, in the order of 10_state.md R28. The result needs no field: an instance's output pins are
named by its place in the netlist (`Driver.cell`). -/

namespace Sys2Proof

/-- R2, R28: an instance of one of the 21 operations. -/
inductive Instr where
  /-- R75. -/
  | nand (a b : Driver)
  /-- R81. -/
  | not (a : Driver)
  /-- R82. -/
  | and (a b : Driver)
  /-- R83. -/
  | or (a b : Driver)
  /-- R84. -/
  | nor (a b : Driver)
  /-- R85. -/
  | xor (a b : Driver)
  /-- R86. -/
  | mux (a b sel : Driver)
  /-- R87. -/
  | dmux (x sel : Driver)
  /-- R101. -/
  | not16 (x : Pins 16)
  /-- R102. -/
  | and16 (a b : Pins 16)
  /-- R103. -/
  | or16 (a b : Pins 16)
  /-- R104. -/
  | mux16 (a b : Pins 16) (sel : Driver)
  /-- R105. -/
  | or8way (x : Pins 8)
  /-- R106. -/
  | mux4way16 (a b c d : Pins 16) (sel : Pins 2)
  /-- R107. -/
  | mux8way16 (a b c d e f g h : Pins 16) (sel : Pins 3)
  /-- R108. -/
  | dmux4way (x : Driver) (sel : Pins 2)
  /-- R109. -/
  | dmux8way (x : Driver) (sel : Pins 3)
  /-- R123. -/
  | halfAdder (a b : Driver)
  /-- R124. -/
  | fullAdder (a b c : Driver)
  /-- R125. -/
  | add16 (a b : Pins 16)
  /-- R126. -/
  | inc16 (a : Pins 16)
deriving DecidableEq, Repr

end Sys2Proof
end

