-- ==== Sys2Proof/Machine/Format.lean ====
section
/-! DEFINITION. The tables of ports, formats, layers and indices (10_state.md R28, 30_encoding.md R56, R57). -/

namespace Sys2Proof

/-- R2: every operation, in index order. -/
def Op.all : List Op :=
  [.nand, .not, .and, .or, .nor, .xor, .mux, .dmux, .not16, .and16, .or16, .mux16, .or8way, .mux4way16, .mux8way16,
   .dmux4way, .dmux8way, .halfAdder, .fullAdder, .add16, .inc16]

/-- R55: the name, as the document spells it. -/
def Op.name : Op → String
  | .nand => "nand" | .not => "not" | .and => "and" | .or => "or" | .nor => "nor" | .xor => "xor"
  | .mux => "mux" | .dmux => "dmux" | .not16 => "not16" | .and16 => "and16" | .or16 => "or16" | .mux16 => "mux16"
  | .or8way => "or8way" | .mux4way16 => "mux4way16" | .mux8way16 => "mux8way16"
  | .dmux4way => "dmux4way" | .dmux8way => "dmux8way"
  | .halfAdder => "half_adder" | .fullAdder => "full_adder" | .add16 => "add16" | .inc16 => "inc16"

/-- R55, R66 `known_operation`: the operation with this name, if it is one of the 21. -/
def Op.ofName? (s : String) : Option Op := Op.all.find? fun op => op.name == s

/-- R57: `op[4:0]`. -/
def Op.index : Op → BitVec 5
  | .nand => 0b00000 | .not => 0b00001 | .and => 0b00010 | .or => 0b00011 | .nor => 0b00100 | .xor => 0b00101
  | .mux => 0b00110 | .dmux => 0b00111 | .not16 => 0b01000 | .and16 => 0b01001 | .or16 => 0b01010 | .mux16 => 0b01011
  | .or8way => 0b01100 | .mux4way16 => 0b01101 | .mux8way16 => 0b01110 | .dmux4way => 0b01111 | .dmux8way => 0b10000
  | .halfAdder => 0b10001 | .fullAdder => 0b10010 | .add16 => 0b10011 | .inc16 => 0b10100

/-- R2: the four layers. -/
inductive Layer where
  | l0 | l1 | l2 | l3
deriving DecidableEq, Repr

/-- R2, R57. -/
def Op.layer : Op → Layer
  | .nand => .l0
  | .not | .and | .or | .nor | .xor | .mux | .dmux => .l1
  | .not16 | .and16 | .or16 | .mux16 | .or8way | .mux4way16 | .mux8way16 | .dmux4way | .dmux8way => .l2
  | .halfAdder | .fullAdder | .add16 | .inc16 => .l3

/-- R56: the fourteen formats. -/
inductive Format where
  | g1 | g2 | m1 | x1 | w1 | w2 | wm | r8 | wm4 | wm8 | x4 | x8 | a2 | a3
deriving DecidableEq, Repr

/-- R56: input widths in order. -/
def Format.inputWidths : Format → List Nat
  | .g1 => [1] | .g2 => [1, 1] | .m1 => [1, 1, 1] | .x1 => [1, 1] | .w1 => [16] | .w2 => [16, 16]
  | .wm => [16, 16, 1] | .r8 => [8] | .wm4 => [16, 16, 16, 16, 2]
  | .wm8 => [16, 16, 16, 16, 16, 16, 16, 16, 3] | .x4 => [1, 2] | .x8 => [1, 3] | .a2 => [1, 1] | .a3 => [1, 1, 1]

/-- R56: output width. -/
def Format.outputWidth : Format → Nat
  | .g1 | .g2 | .m1 | .r8 => 1
  | .x1 | .a2 | .a3 => 2
  | .w1 | .w2 | .wm | .wm4 | .wm8 => 16
  | .x4 => 4
  | .x8 => 8

/-- R56, R57. -/
def Op.format : Op → Format
  | .not => .g1
  | .nand | .and | .or | .nor | .xor => .g2
  | .mux => .m1
  | .dmux => .x1
  | .not16 | .inc16 => .w1
  | .and16 | .or16 | .add16 => .w2
  | .mux16 => .wm
  | .or8way => .r8
  | .mux4way16 => .wm4
  | .mux8way16 => .wm8
  | .dmux4way => .x4
  | .dmux8way => .x8
  | .halfAdder => .a2
  | .fullAdder => .a3

/-- R28: the input ports, in positional order. -/
def Op.inputs : Op → List Port
  | .nand | .and | .or | .nor | .xor | .halfAdder => [⟨"a", 1⟩, ⟨"b", 1⟩]
  | .not => [⟨"a", 1⟩]
  | .mux => [⟨"a", 1⟩, ⟨"b", 1⟩, ⟨"sel", 1⟩]
  | .dmux => [⟨"x", 1⟩, ⟨"sel", 1⟩]
  | .not16 => [⟨"x", 16⟩]
  | .and16 | .or16 | .add16 => [⟨"a", 16⟩, ⟨"b", 16⟩]
  | .mux16 => [⟨"a", 16⟩, ⟨"b", 16⟩, ⟨"sel", 1⟩]
  | .or8way => [⟨"x", 8⟩]
  | .mux4way16 => [⟨"a", 16⟩, ⟨"b", 16⟩, ⟨"c", 16⟩, ⟨"d", 16⟩, ⟨"sel", 2⟩]
  | .mux8way16 =>
    [⟨"a", 16⟩, ⟨"b", 16⟩, ⟨"c", 16⟩, ⟨"d", 16⟩, ⟨"e", 16⟩, ⟨"f", 16⟩, ⟨"g", 16⟩, ⟨"h", 16⟩, ⟨"sel", 3⟩]
  | .dmux4way => [⟨"x", 1⟩, ⟨"sel", 2⟩]
  | .dmux8way => [⟨"x", 1⟩, ⟨"sel", 3⟩]
  | .fullAdder => [⟨"a", 1⟩, ⟨"b", 1⟩, ⟨"c", 1⟩]
  | .inc16 => [⟨"a", 16⟩]

/-- R28: the one output port. -/
def Op.output : Op → Port
  | .nand | .not | .and | .or | .nor | .xor | .mux | .or8way => ⟨"out", 1⟩
  | .dmux => ⟨"branch", 2⟩
  | .not16 | .and16 | .or16 | .mux16 | .mux4way16 | .mux8way16 | .add16 | .inc16 => ⟨"out", 16⟩
  | .dmux4way => ⟨"branch", 4⟩
  | .dmux8way => ⟨"branch", 8⟩
  | .halfAdder | .fullAdder => ⟨"r", 2⟩

/-- The widths of the input ports, in order. -/
def Op.inputWidths (op : Op) : List Nat := op.inputs.map Port.width

/-- The operation an instance is of. -/
def Instr.op : Instr → Op
  | .nand _ _ => .nand | .not _ => .not | .and _ _ => .and | .or _ _ => .or | .nor _ _ => .nor | .xor _ _ => .xor
  | .mux _ _ _ => .mux | .dmux _ _ => .dmux
  | .not16 _ => .not16 | .and16 _ _ => .and16 | .or16 _ _ => .or16 | .mux16 _ _ _ => .mux16 | .or8way _ => .or8way
  | .mux4way16 _ _ _ _ _ => .mux4way16 | .mux8way16 _ _ _ _ _ _ _ _ _ => .mux8way16
  | .dmux4way _ _ => .dmux4way | .dmux8way _ _ => .dmux8way
  | .halfAdder _ _ => .halfAdder | .fullAdder _ _ _ => .fullAdder | .add16 _ _ => .add16 | .inc16 _ => .inc16

/-- The drivers of an instance's input ports, in the positional order of R28. -/
def Instr.args : Instr → List (List Driver)
  | .nand a b | .and a b | .or a b | .nor a b | .xor a b | .halfAdder a b => [[a], [b]]
  | .not a => [[a]]
  | .mux a b sel => [[a], [b], [sel]]
  | .dmux x sel => [[x], [sel]]
  | .not16 x => [x.drivers]
  | .and16 a b | .or16 a b | .add16 a b => [a.drivers, b.drivers]
  | .mux16 a b sel => [a.drivers, b.drivers, [sel]]
  | .or8way x => [x.drivers]
  | .mux4way16 a b c d sel => [a.drivers, b.drivers, c.drivers, d.drivers, sel.drivers]
  | .mux8way16 a b c d e f g h sel =>
    [a.drivers, b.drivers, c.drivers, d.drivers, e.drivers, f.drivers, g.drivers, h.drivers, sel.drivers]
  | .dmux4way x sel => [[x], sel.drivers]
  | .dmux8way x sel => [[x], sel.drivers]
  | .fullAdder a b c => [[a], [b], [c]]
  | .inc16 a => [a.drivers]

/-- R25: the arguments have the number and the widths of the operation's input ports, by the types of `Instr`. -/
theorem Instr.args_widths (i : Instr) : i.args.map List.length = i.op.inputWidths := by
  cases i <;> simp [Instr.args, Instr.op, Op.inputWidths, Op.inputs, Pins.width]

/-- The drivers of an instance's input ports, with their widths. -/
def Instr.ports (i : Instr) : Ports Driver i.op.inputWidths := ⟨i.args, i.args_widths⟩

end Sys2Proof
end

