-- ==== Sys2Proof/Syntax/Netlist.lean ====
section
/-! DEFINITION. A netlist (30_encoding.md R64), the block's counterpart of a program. -/

namespace Sys2Proof

/-- An output port of a netlist and the drivers of its bits, index 0 first. -/
structure OutPort where
  name : String
  drivers : List Driver
deriving DecidableEq, Repr

/-- R64: input ports, instances in an order, and output ports. Each pin has exactly one driver by the form of the data.
The three conditions of R64 that the form leaves open are `Netlist.wellFormed`. -/
structure Netlist where
  inputs : List Port
  insts : List Instr
  outputs : List OutPort
deriving DecidableEq, Repr

end Sys2Proof
end

