-- ==== Sys2Proof/Machine/Wiring.lean ====
section
/-! DEFINITION. Following wires (10_state.md R27) and evaluating the instances of a netlist in order (30_encoding.md R67), for
any kind of value a wire may carry: Bits for the meaning, path lengths for the depth (R144), drivers for the expansion
(R142). -/

namespace Sys2Proof

/-- Entry `j` of entry `k`, where both exist. -/
def bitAt {α : Type} (l : List (List α)) (k j : Nat) : Option α :=
  match l[k]? with
  | some v => v[j]?
  | none => none

/-- What a driver carries, given what constants, input ports and earlier instances carry. R182: a driver that does not
exist carries nothing. -/
def Driver.read {α : Type} (const : Bit → α) (ports cells : List (List α)) : Driver → Option α
  | .const b => some (const b)
  | .port p j => bitAt ports p j
  | .cell k j => bitAt cells k j

/-- All of a list, or nothing. -/
def readAll {δ α : Type} (f : δ → Option α) : List δ → Option (List α)
  | [] => some []
  | d :: rest =>
    match f d, readAll f rest with
    | some a, some as => some (a :: as)
    | _, _ => none

theorem readAll_length {δ α : Type} {f : δ → Option α} {l : List δ} {as : List α} (h : readAll f l = some as) :
    as.length = l.length := by
  induction l generalizing as with
  | nil => cases h; rfl
  | cons d rest ih =>
    unfold readAll at h
    split at h
    · rename_i hr
      cases h
      simp [ih hr]
    · cases h

theorem readAll_widths {δ α : Type} {f : δ → Option α} {l : List (List δ)} {as : List (List α)}
    (h : readAll (readAll f) l = some as) : as.map List.length = l.map List.length := by
  induction l generalizing as with
  | nil => cases h; rfl
  | cons d rest ih =>
    unfold readAll at h
    split at h
    · rename_i hd hr
      cases h
      simp [ih hr, readAll_length hd]
    · cases h

/-- What a row of ports carries, with the widths of the wires (R25), where every wire carries something. -/
def readPorts {δ α : Type} {ws : List Nat} (f : δ → Option α) (p : Ports δ ws) : Option (Ports α ws) :=
  match h : readAll (readAll f) p.lists with
  | some ls => some ⟨ls, by rw [readAll_widths h, p.widths]⟩
  | none => none

/-- R67: the instances in order, each applied to what its pins carry; `cells` are the outputs of the earlier ones. -/
def evalCells {α : Type} (const : Bit → α) (apply : (op : Op) → Ports α op.inputWidths → Option (List α))
    (ports : List (List α)) : List Instr → List (List α) → Option (List (List α))
  | [], cells => some cells
  | i :: rest, cells =>
    match readPorts (Driver.read const ports cells) i.ports with
    | some args =>
      match apply i.op args with
      | some out => evalCells const apply ports rest (cells ++ [out])
      | none => none
    | none => none

/-- R67: what the output ports carry. -/
def Netlist.evalWith {α : Type} (const : Bit → α) (apply : (op : Op) → Ports α op.inputWidths → Option (List α))
    (n : Netlist) (ports : List (List α)) : Option (List (List α)) :=
  match evalCells const apply ports n.insts [] with
  | some cells => readAll (fun o => readAll (Driver.read const ports cells) o.drivers) n.outputs
  | none => none

end Sys2Proof
end

