-- ==== Sys2Proof/Machine/Apply.lean ====
section
/-! DEFINITION. An operation as one total function from the values of its input ports to its output value (10_state.md R20,
60_exceptions.md R160): the form in which netlists, recipes and nested instances of a text use the functions of Gates.lean. -/

namespace Sys2Proof

/-- R28: the operation's output value. R25, R160: the widths are in the types, and there is no error. -/
def Op.fn : (op : Op) → Ports Bit op.inputWidths → Bus op.output.width
  | .nand, v => Bus.one (Gate.nand (v.one 0) (v.one 1))
  | .not, v => Bus.one (Gate.not (v.one 0))
  | .and, v => Bus.one (Gate.and (v.one 0) (v.one 1))
  | .or, v => Bus.one (Gate.or (v.one 0) (v.one 1))
  | .nor, v => Bus.one (Gate.nor (v.one 0) (v.one 1))
  | .xor, v => Bus.one (Gate.xor (v.one 0) (v.one 1))
  | .mux, v => Bus.one (Gate.mux (v.one 0) (v.one 1) (v.one 2))
  | .dmux, v => Gate.dmux (v.one 0) (v.one 1)
  | .not16, v => Gate.not16 (v.bus 0)
  | .and16, v => Gate.and16 (v.bus 0) (v.bus 1)
  | .or16, v => Gate.or16 (v.bus 0) (v.bus 1)
  | .mux16, v => Gate.mux16 (v.bus 0) (v.bus 1) (v.one 2)
  | .or8way, v => Bus.one (Gate.or8way (v.bus 0))
  | .mux4way16, v => Gate.mux4way16 (v.bus 0) (v.bus 1) (v.bus 2) (v.bus 3) (v.bus 4)
  | .mux8way16, v =>
    Gate.mux8way16 (v.bus 0) (v.bus 1) (v.bus 2) (v.bus 3) (v.bus 4) (v.bus 5) (v.bus 6) (v.bus 7) (v.bus 8)
  | .dmux4way, v => Gate.dmux4way (v.one 0) (v.bus 1)
  | .dmux8way, v => Gate.dmux8way (v.one 0) (v.bus 1)
  | .halfAdder, v => Gate.halfAdder (v.one 0) (v.one 1)
  | .fullAdder, v => Gate.fullAdder (v.one 0) (v.one 1) (v.one 2)
  | .add16, v => Gate.add16 (v.bus 0) (v.bus 1)
  | .inc16, v => Gate.inc16 (v.bus 0)

/-- The output value as Bits, index 0 first: the form that `evalCells` takes. -/
def Op.bits (op : Op) (v : Ports Bit op.inputWidths) : Option (List Bit) := some (op.fn v).bits

/-- The widths of a netlist's input ports. -/
def Netlist.inputWidths (n : Netlist) : List Nat := n.inputs.map Port.width

/-- R67: the value of a netlist for given values of its input ports, which have their widths (R25). -/
def Netlist.eval (n : Netlist) (ports : Ports Bit n.inputWidths) : Option (List (List Bit)) :=
  n.evalWith id Op.bits ports.lists

end Sys2Proof
end

