-- ==== Sys2Proof/Decode.lean ====
section
/-! DEFINITION. Decoding and encoding an instance: the operation index (30_encoding.md R57, R60, R68) and the drivers of its
ports. The wiring has no binary form (R68), so only the index is a number. -/

namespace Sys2Proof

/-- Why a raw instance is refused. R25: there is no refusal for a wrong width, which no raw instance can have. -/
inductive Reject where
  /-- R60: the listing word names no operation. -/
  | noSuchOperation (word : BitVec 8)
deriving DecidableEq, Repr

/-- R57, R60: the operation with this index; 21 to 31 name none. -/
def Op.ofIndex? (index : BitVec 5) : Option Op :=
  match index.toNat with
  | 0 => some .nand
  | 1 => some .not
  | 2 => some .and
  | 3 => some .or
  | 4 => some .nor
  | 5 => some .xor
  | 6 => some .mux
  | 7 => some .dmux
  | 8 => some .not16
  | 9 => some .and16
  | 10 => some .or16
  | 11 => some .mux16
  | 12 => some .or8way
  | 13 => some .mux4way16
  | 14 => some .mux8way16
  | 15 => some .dmux4way
  | 16 => some .dmux8way
  | 17 => some .halfAdder
  | 18 => some .fullAdder
  | 19 => some .add16
  | 20 => some .inc16
  | _ => none

/-- The operation of a listing word: the index stands in bits 4 to 0, and bits 7 to 5 are `0` (DESIGN CHOICE, log 5). -/
def decodeWord (word : BitVec 8) : Except Reject Op :=
  match word.extractLsb' 5 3 == 0, Op.ofIndex? (word.extractLsb' 0 5) with
  | true, some op => .ok op
  | _, _ => .error (.noSuchOperation word)

/-- The listing word of an operation. -/
def encodeWord (op : Op) : BitVec 8 := op.index.setWidth 8

/-- The widths of the arguments of an instance with this listing word; one that names no operation has none. -/
def wordWidths (word : BitVec 8) : List Nat :=
  match decodeWord word with
  | .ok op => op.inputWidths
  | .error _ => []

/-- An instance before decoding: the listing word that holds its operation index (R57, R68; log 5) and the drivers of
its input ports in port order (R28). R68: the wiring has no binary form, so it stands as data. R25: its widths are those of
the ports of the operation that the word names. -/
structure RawInst where
  word : BitVec 8
  args : Ports Driver (wordWidths word)
deriving DecidableEq, Repr

/-- R28, R56: an operation with its arguments in positional order. -/
def Instr.ofPorts : (op : Op) → Ports Driver op.inputWidths → Instr
  | .nand, p => .nand (p.one 0) (p.one 1)
  | .not, p => .not (p.one 0)
  | .and, p => .and (p.one 0) (p.one 1)
  | .or, p => .or (p.one 0) (p.one 1)
  | .nor, p => .nor (p.one 0) (p.one 1)
  | .xor, p => .xor (p.one 0) (p.one 1)
  | .mux, p => .mux (p.one 0) (p.one 1) (p.one 2)
  | .dmux, p => .dmux (p.one 0) (p.one 1)
  | .not16, p => .not16 (p.pins 0)
  | .and16, p => .and16 (p.pins 0) (p.pins 1)
  | .or16, p => .or16 (p.pins 0) (p.pins 1)
  | .mux16, p => .mux16 (p.pins 0) (p.pins 1) (p.one 2)
  | .or8way, p => .or8way (p.pins 0)
  | .mux4way16, p => .mux4way16 (p.pins 0) (p.pins 1) (p.pins 2) (p.pins 3) (p.pins 4)
  | .mux8way16, p =>
    .mux8way16 (p.pins 0) (p.pins 1) (p.pins 2) (p.pins 3) (p.pins 4) (p.pins 5) (p.pins 6) (p.pins 7) (p.pins 8)
  | .dmux4way, p => .dmux4way (p.one 0) (p.pins 1)
  | .dmux8way, p => .dmux8way (p.one 0) (p.pins 1)
  | .halfAdder, p => .halfAdder (p.one 0) (p.one 1)
  | .fullAdder, p => .fullAdder (p.one 0) (p.one 1) (p.one 2)
  | .add16, p => .add16 (p.pins 0) (p.pins 1)
  | .inc16, p => .inc16 (p.pins 0)

/-- R60: the instance that a raw instance stands for, refused where its word names no operation. -/
def decode (r : RawInst) : Except Reject Instr :=
  match h : decodeWord r.word with
  | .ok op => .ok (Instr.ofPorts op ⟨r.args.lists, by rw [r.args.widths, wordWidths, h]⟩)
  | .error e => .error e

theorem decodeWord_encodeWord (op : Op) : decodeWord (encodeWord op) = .ok op := by cases op <;> decide

/-- The raw form of an instance: its listing word and the drivers of its ports in order. -/
def encode (i : Instr) : RawInst :=
  ⟨encodeWord i.op, ⟨i.args, by rw [wordWidths, decodeWord_encodeWord, i.args_widths]⟩⟩

/-- A raw instance with this listing word and every input pin tied to the constant `0`: the form in which the host
places an operation by its index alone (log 6). -/
def RawInst.tied (word : BitVec 8) : RawInst :=
  ⟨word, (wordWidths word).map fun w => List.replicate w (.const false), by simp [Function.comp_def]⟩

/-- A number of the opcode table as a listing word. One that does not fit in 8 bits names no operation, as 255 does
(log 5). -/
def tableWord (w : Nat) : BitVec 8 := if w < 256 then BitVec.ofNat 8 w else 255#8

/-- What the decoder reads from a word of the opcode table, whose rows give no operand any bits (log 6). -/
def decodeTableWord (_nbits w : Nat) : Option Instr := (decode (RawInst.tied (tableWord w))).toOption

end Sys2Proof
end

