-- ==== Sys2Proof/WellFormed.lean ====
section
/-! DEFINITION. When a netlist is one of this block (30_encoding.md R64). Widths are in the types of `Instr` (R25), and one
driver per pin in the form of `Netlist`; what is left is that every driver exists and stands earlier (R64(1), (2)). -/

namespace Sys2Proof

/-- Bit `j` of entry `k` exists in a list of widths. -/
def bitExists (widths : List Nat) (k j : Nat) : Bool :=
  match widths[k]? with
  | some w => j < w
  | none => false

/-- R64(1), (2): the driver is a constant, a bit of an input port, or an output pin of an instance that stands earlier.
`ports` are the widths of the input ports, `cells` those of the outputs of the earlier instances. -/
def Driver.wellFormed (ports cells : List Nat) : Driver → Bool
  | .const _ => true
  | .port p j => bitExists ports p j
  | .cell k j => bitExists cells k j

/-- Every pin of the instance is driven from an input port, a constant or an earlier instance. -/
def Instr.wellFormed (ports cells : List Nat) (i : Instr) : Bool :=
  i.args.all fun port => port.all (Driver.wellFormed ports cells)

/-- R64(2): each instance in turn reads only what stands before it. -/
def instsWellFormed (ports : List Nat) : List Nat → List Instr → Bool
  | _, [] => true
  | cells, i :: rest => i.wellFormed ports cells && instsWellFormed ports (cells ++ [i.op.output.width]) rest

/-- The widths of the outputs of a list of instances. -/
def outWidths (insts : List Instr) : List Nat := insts.map fun i => i.op.output.width

/-- R64: the instances are in an order that respects the wires, and every bit of an output port has a driver. -/
def Netlist.wellFormed (n : Netlist) : Bool :=
  instsWellFormed n.inputWidths [] n.insts &&
    n.outputs.all fun o => o.drivers.all (Driver.wellFormed n.inputWidths (outWidths n.insts))

end Sys2Proof
end

