-- ==== Sys2Proof/Machine/Block.lean ====
section
/-! DEFINITION. The block as 00_scope.md R16 answers for it: its state is the unit type, the netlist is a parameter, nothing is
pending and there is no step; an operation or a netlist is a function from input values to output values (10_state.md R20,
30_encoding.md R67; the spec's decision D18). -/

namespace Sys2Proof

/-- R16, R20, R37: the block's state, "the unit type"; "the complete list of state elements is empty". -/
abbrev BlockState := Unit

/-- R20: one use of an operation: the state it leaves, which is the state it found, and its output value. -/
def Op.use (op : Op) (b : BlockState) (v : Ports Bit op.inputWidths) : BlockState × Bus op.output.width := (b, op.fn v)

/-- R16, R64: a block with its parameter, the fixed wiring. -/
structure Block where
  netlist : Netlist
  wf : netlist.wellFormed = true
deriving DecidableEq, Repr

/-- R16, R67: one use of the block: the host drives every input port and reads every output port. -/
def Block.use (k : Block) (b : BlockState) (v : Ports Bit k.netlist.inputWidths) : BlockState × Option (List (List Bit)) :=
  (b, k.netlist.eval v)

/-- Uses one after another, each finding the state that the one before it left. -/
def Block.uses (k : Block) : BlockState → List (Ports Bit k.netlist.inputWidths) → BlockState × List (Option (List (List Bit)))
  | b, [] => (b, [])
  | b, v :: rest => ((k.uses (k.use b v).1 rest).1, (k.use b v).2 :: (k.uses (k.use b v).1 rest).2)

end Sys2Proof
end

