-- ==== Sys2Proof/Machine/State.lean ====
section
/-! DEFINITION. The state of the machine that the host's interface asks for. Of it, `block` is the block's own state, the unit
type (00_scope.md R16, 10_state.md R20, R37). The rest is `Evaluation`: the parameter, the levels on the host's pins, and how far
one evaluation of the netlist has come, which R31 and R67 allow and which cannot be observed (log 1). -/

namespace Sys2Proof.Machine

/-- An instance that has been evaluated: its operation and wiring, and the settled value of its output pins
(70_reset_and_hazards.md R185), as wide as its output port (R25). -/
structure Cell where
  inst : Instr
  out : Bus inst.op.output.width
deriving DecidableEq, Repr

/-- The evaluation of a netlist (30_encoding.md R67) in progress: no state of the block. R25: every width is in a type. -/
structure Evaluation where
  /-- The input ports of the netlist, part of the fixed wiring (R64). -/
  ports : List Port
  /-- The levels the host drives on the input ports (70_reset_and_hazards.md R182), with their widths. -/
  inputs : Ports Bit (ports.map Port.width)
  /-- The instances evaluated so far; place in the list is the instance's number (`Driver.cell`). -/
  settled : List Cell
  /-- The instances of the fixed wiring still to be evaluated, the next one first. -/
  pending : List RawInst
  /-- The output ports of the netlist and their drivers. -/
  outputs : List OutPort
deriving DecidableEq, Repr

/-- What a step acts on: the block's state, and the record of the evaluation beside it. -/
structure State extends Evaluation where
  /-- R16: the block's state, of the unit type. -/
  block : BlockState := ()
deriving DecidableEq, Repr

/-- 60_exceptions.md R160: "every operation is total"; the set of exceptions is empty. Nothing raises a fault (log 10). -/
inductive Fault where
deriving DecidableEq, Repr

/-- Why the model gives a configuration no meaning. Nothing in the hardware corresponds to a refusal (R60, R182); each is
safe, since it only leaves claims unprovable. -/
inductive Refusal where
  /-- An arm of `exec` without a meaning yet. No arm is one. Safe. -/
  | notModelled (mnemonic : String)
  /-- R60: the next instance's listing word names no operation. Raised by `step`. Safe. -/
  | noSuchOperation (word : BitVec 8)
  /-- R182, R189: an input pin has no driver whose value is settled: the port bit or the instance does not exist, or the
  instance stands later, as in a loop. Raised by every meaning. Safe. -/
  | undrivenPin
deriving DecidableEq, Repr

/-- What a step answers. -/
abbrev Result := Host.Outcome State Fault Refusal

/-- R37, R180: there is nothing to reset. No netlist is placed and no input is driven (DESIGN CHOICE, log 3). -/
def State.reset : State := { ports := [], inputs := ⟨[], rfl⟩, settled := [], pending := [], outputs := [], block := () }

end Sys2Proof.Machine
end

