-- ==== Sys2Proof/Machine/Ops.lean ====
section
/-! DEFINITION. The named operations over the evaluation: reading a level, settling an instance, and what the host does.
TAKING AN EXCEPTION AND RETURNING FROM ONE: there is none to take (60_exceptions.md R160 to R166), so no such operation. -/

namespace Sys2Proof.Machine

/-- The settled outputs so far. -/
def State.outs (s : State) : List (List Bit) := s.settled.map fun c => c.out.bits

/-- The level a driver carries, where it is driven and settled (70_reset_and_hazards.md R182, R185). -/
def State.level (s : State) (d : Driver) : Option Bit := Driver.read id s.inputs.lists s.outs d

/-- The instance has settled to `out`; it becomes the next numbered one. -/
def State.settle (s : State) (i : Instr) (out : Bus i.op.output.width) : State :=
  { s with settled := s.settled ++ [⟨i, out⟩] }

/-- An instance's evaluation: its output settles where all its pins are driven; R182: else the model refuses. -/
def State.conclude (s : State) (i : Instr) : Option (Bus i.op.output.width) → Result
  | some out => .next (s.settle i out)
  | none => .refused .undrivenPin

/-- The whole of the wiring, evaluated part first. R54: no step changes it. -/
def State.wiring (s : State) : List RawInst := s.settled.map (fun c => encode c.inst) ++ s.pending

/-- The widths of the input ports. -/
def State.inputWidths (s : State) : List Nat := s.ports.map Port.width

/-- The host places a netlist and drives its input ports (log 3). R25, R162: the levels have the widths of the ports. -/
def State.load (n : Netlist) (inputs : Ports Bit n.inputWidths) : State :=
  { ports := n.inputs, inputs := inputs, settled := [], pending := n.insts.map encode, outputs := n.outputs,
    block := () }

/-- The host drives new levels on the input pins: every output is again a function of the present inputs, so the whole
wiring is to be evaluated anew (70_reset_and_hazards.md R181; log 17). R25, R162: the levels have the widths of the ports. -/
def State.drive (s : State) (inputs : Ports Bit s.inputWidths) : State :=
  { ports := s.ports, inputs := inputs, settled := [], pending := s.wiring, outputs := s.outputs, block := s.block }

/-- The host reads the output ports, where every bit of them has settled. -/
def State.readOutputs (s : State) : Option (List (List Bit)) := readAll (fun o => readAll s.level o.drivers) s.outputs

end Sys2Proof.Machine
end

