-- ==== Sys2Proof/Machine/Operands.lean ====
section
/-! DEFINITION. Every operand form (30_encoding.md R58): a whole pin or a whole bus, its value taken as it is. A constant, a
port, a bit, a sub-bus, a bus built from bits or another instance's output are all lists of drivers (R64, R65), so two
readings cover them. -/

namespace Sys2Proof.Machine

/-- R58: the value on a 1-bit input pin. -/
def State.bit (s : State) (d : Driver) : Option Bit := s.level d

/-- R58: the value on an input bus, index 0 first. -/
def State.bus {n : Nat} (s : State) (p : Pins n) : Option (Bus n) :=
  match h : readAll s.level p.drivers with
  | some bits => some (Bus.ofBits bits (by rw [readAll_length h, p.width]))
  | none => none

end Sys2Proof.Machine
end

