-- ==== Sys2Proof/Machine/L0Nand.lean ====
section
/-! DEFINITION. Layer L0: the meaning of a `nand` instance (40_l0_nand.md). -/

namespace Sys2Proof.Machine

/-- R75. -/
def execNand (a b : Driver) (s : State) : Result :=
  s.conclude (.nand a b) do return Bus.one (Gate.nand (← s.bit a) (← s.bit b))

end Sys2Proof.Machine
end

