-- ==== Sys2Proof/Machine/L1Scalar.lean ====
section
/-! DEFINITION. Layer L1: the meanings of the scalar gate set (41_l1_scalar_gates.md). -/

namespace Sys2Proof.Machine

/-- R81. -/
def execNot (a : Driver) (s : State) : Result :=
  s.conclude (.not a) do return Bus.one (Gate.not (← s.bit a))

/-- R82. -/
def execAnd (a b : Driver) (s : State) : Result :=
  s.conclude (.and a b) do return Bus.one (Gate.and (← s.bit a) (← s.bit b))

/-- R83. -/
def execOr (a b : Driver) (s : State) : Result :=
  s.conclude (.or a b) do return Bus.one (Gate.or (← s.bit a) (← s.bit b))

/-- R84. -/
def execNor (a b : Driver) (s : State) : Result :=
  s.conclude (.nor a b) do return Bus.one (Gate.nor (← s.bit a) (← s.bit b))

/-- R85. -/
def execXor (a b : Driver) (s : State) : Result :=
  s.conclude (.xor a b) do return Bus.one (Gate.xor (← s.bit a) (← s.bit b))

/-- R86. -/
def execMux (a b sel : Driver) (s : State) : Result :=
  s.conclude (.mux a b sel) do return Bus.one (Gate.mux (← s.bit a) (← s.bit b) (← s.bit sel))

/-- R87: output pins `branch[0]`, `branch[1]`. -/
def execDmux (x sel : Driver) (s : State) : Result :=
  s.conclude (.dmux x sel) do return Gate.dmux (← s.bit x) (← s.bit sel)

end Sys2Proof.Machine
end

