-- ==== Sys2Proof/Machine/L2Wide.lean ====
section
/-! DEFINITION. Layer L2: the meanings of the width-16 and fan-out operations (42_l2_wide_and_fanout.md). -/

namespace Sys2Proof.Machine

/-- R101. -/
def execNot16 (x : Pins 16) (s : State) : Result :=
  s.conclude (.not16 x) do return Gate.not16 (← s.bus x)

/-- R102. -/
def execAnd16 (a b : Pins 16) (s : State) : Result :=
  s.conclude (.and16 a b) do return Gate.and16 (← s.bus a) (← s.bus b)

/-- R103. -/
def execOr16 (a b : Pins 16) (s : State) : Result :=
  s.conclude (.or16 a b) do return Gate.or16 (← s.bus a) (← s.bus b)

/-- R104. -/
def execMux16 (a b : Pins 16) (sel : Driver) (s : State) : Result :=
  s.conclude (.mux16 a b sel) do return Gate.mux16 (← s.bus a) (← s.bus b) (← s.bit sel)

/-- R105. -/
def execOr8way (x : Pins 8) (s : State) : Result :=
  s.conclude (.or8way x) do return Bus.one (Gate.or8way (← s.bus x))

/-- R106. -/
def execMux4way16 (a b c d : Pins 16) (sel : Pins 2) (s : State) : Result :=
  s.conclude (.mux4way16 a b c d sel) do
    return Gate.mux4way16 (← s.bus a) (← s.bus b) (← s.bus c) (← s.bus d) (← s.bus sel)

/-- R107. -/
def execMux8way16 (a b c d e f g h : Pins 16) (sel : Pins 3) (s : State) : Result :=
  s.conclude (.mux8way16 a b c d e f g h sel) do
    return Gate.mux8way16 (← s.bus a) (← s.bus b) (← s.bus c) (← s.bus d) (← s.bus e) (← s.bus f) (← s.bus g)
      (← s.bus h) (← s.bus sel)

/-- R108. -/
def execDmux4way (x : Driver) (sel : Pins 2) (s : State) : Result :=
  s.conclude (.dmux4way x sel) do return Gate.dmux4way (← s.bit x) (← s.bus sel)

/-- R109. -/
def execDmux8way (x : Driver) (sel : Pins 3) (s : State) : Result :=
  s.conclude (.dmux8way x sel) do return Gate.dmux8way (← s.bit x) (← s.bus sel)

end Sys2Proof.Machine
end

