-- ==== Sys2Proof/Machine/L3Arith.lean ====
section
/-! DEFINITION. Layer L3: the meanings of the arithmetic operations (43_l3_arithmetic.md). -/

namespace Sys2Proof.Machine

/-- R123: output pins `r[0]` = sum, `r[1]` = carry. -/
def execHalfAdder (a b : Driver) (s : State) : Result :=
  s.conclude (.halfAdder a b) do return Gate.halfAdder (← s.bit a) (← s.bit b)

/-- R124: output pins `r[0]` = sum, `r[1]` = carry. -/
def execFullAdder (a b c : Driver) (s : State) : Result :=
  s.conclude (.fullAdder a b c) do return Gate.fullAdder (← s.bit a) (← s.bit b) (← s.bit c)

/-- R125. -/
def execAdd16 (a b : Pins 16) (s : State) : Result :=
  s.conclude (.add16 a b) do return Gate.add16 (← s.bus a) (← s.bus b)

/-- R126. -/
def execInc16 (a : Pins 16) (s : State) : Result :=
  s.conclude (.inc16 a) do return Gate.inc16 (← s.bus a)

end Sys2Proof.Machine
end

