-- ==== Sys2Proof/Machine/Dispatch.lean ====
section
/-! DEFINITION. One arm per operation (30_encoding.md R57). -/

namespace Sys2Proof.Machine

def exec (i : Instr) (s : State) : Host.Outcome State Fault Refusal :=
  match i with
  | .nand a b => Sys2Proof.Machine.execNand a b s
  | .not a => Sys2Proof.Machine.execNot a s
  | .and a b => Sys2Proof.Machine.execAnd a b s
  | .or a b => Sys2Proof.Machine.execOr a b s
  | .nor a b => Sys2Proof.Machine.execNor a b s
  | .xor a b => Sys2Proof.Machine.execXor a b s
  | .mux a b sel => Sys2Proof.Machine.execMux a b sel s
  | .dmux x sel => Sys2Proof.Machine.execDmux x sel s
  | .not16 x => Sys2Proof.Machine.execNot16 x s
  | .and16 a b => Sys2Proof.Machine.execAnd16 a b s
  | .or16 a b => Sys2Proof.Machine.execOr16 a b s
  | .mux16 a b sel => Sys2Proof.Machine.execMux16 a b sel s
  | .or8way x => Sys2Proof.Machine.execOr8way x s
  | .mux4way16 a b c d sel => Sys2Proof.Machine.execMux4way16 a b c d sel s
  | .mux8way16 a b c d e f g h sel => Sys2Proof.Machine.execMux8way16 a b c d e f g h sel s
  | .dmux4way x sel => Sys2Proof.Machine.execDmux4way x sel s
  | .dmux8way x sel => Sys2Proof.Machine.execDmux8way x sel s
  | .halfAdder a b => Sys2Proof.Machine.execHalfAdder a b s
  | .fullAdder a b c => Sys2Proof.Machine.execFullAdder a b c s
  | .add16 a b => Sys2Proof.Machine.execAdd16 a b s
  | .inc16 a => Sys2Proof.Machine.execInc16 a s

end Sys2Proof.Machine
end

