-- ==== Sys2Proof/Machine/Step.lean ====
section
/-! DEFINITION. One step evaluates the next instance of the netlist (30_encoding.md R67; log 2). -/

namespace Sys2Proof.Machine

/-- The refusal that a rejected raw instance comes to. -/
def Refusal.ofReject : Reject → Refusal
  | .noSuchOperation word => .noSuchOperation word

/-- The next instance of the wiring is decoded and evaluated. Where every instance is settled, nothing is left to change
(70_reset_and_hazards.md R184; DESIGN CHOICE, log 4). -/
def step (s : State) : Host.Outcome State Fault Refusal :=
  match s.pending with
  | [] => .next s
  | r :: rest =>
    match decode r with
    | .ok i => exec i { s with pending := rest }
    | .error e => .refused (Refusal.ofReject e)

/-- The instance of this table word, every input pin tied to `0`, placed as the next one to be evaluated (log 6). -/
def State.withFetchWord (s : State) (_nbits w : Nat) : State :=
  { s with pending := RawInst.tied (tableWord w) :: s.pending }

/-- `k` steps. -/
def steps : Nat → State → Result
  | 0, s => .next s
  | k + 1, s =>
    match step s with
    | .next t => steps k t
    | .fault e => .fault e
    | .refused e => .refused e

end Sys2Proof.Machine
end

