-- ==== Sys2Proof/Syntax/Text.lean ====
section
/-! DEFINITION. The abstract form of a netlist text (30_encoding.md R65) and the names of its checks (R66). -/

namespace Sys2Proof

/-- R65 `WIDTH`: the six port widths. -/
inductive PortWidth where
  | w1 | w2 | w3 | w4 | w8 | w16
deriving DecidableEq, Repr

/-- The number a `WIDTH` stands for. -/
def PortWidth.toNat : PortWidth → Nat
  | .w1 => 1 | .w2 => 2 | .w3 => 3 | .w4 => 4 | .w8 => 8 | .w16 => 16

mutual
/-- R65 `arg`: one argument of an operation. -/
inductive TextArg where
  /-- `NAME`: a whole port or wire. -/
  | whole (n : String)
  /-- `NAME[i]`: one bit of a bus. -/
  | bit (n : String) (i : Nat)
  /-- `NAME[lo..hi]`: a sub-bus, both ends included. -/
  | sub (n : String) (lo hi : Nat)
  /-- The constant `0` or `1`. -/
  | const (b : Bit)
  /-- The constant bus `zero16`. -/
  | zero16
  /-- The constant bus `one16`. -/
  | one16
  /-- `[arg, ...]`: a bus built from bits, index 0 first. -/
  | bus (bits : TextArgs)
  /-- A nested instance `OPNAME(arg, ...)`. The name is kept as written, so an unknown one can be refused by name. -/
  | nested (op : String) (args : TextArgs)
deriving DecidableEq, Repr
/-- A list of arguments, first to last. -/
inductive TextArgs where
  | nil
  | cons (a : TextArg) (rest : TextArgs)
deriving DecidableEq, Repr
end

/-- How many arguments there are. -/
def TextArgs.length : TextArgs → Nat
  | .nil => 0
  | .cons _ rest => rest.length + 1

/-- R65 `target`: a name for the whole result, or one name per bit of it, index 0 first. -/
inductive TextTarget where
  | whole (n : String)
  | bits (ns : List String)
deriving DecidableEq, Repr

/-- R65 `line`: `target = OPNAME(arg, ...)`. -/
structure TextLine where
  target : TextTarget
  op : String
  args : TextArgs
deriving DecidableEq, Repr

/-- R65 `port`. -/
structure TextPort where
  name : String
  width : PortWidth
deriving DecidableEq, Repr

/-- R65 `netlist`: a header and its lines. -/
structure TextNetlist where
  name : String
  inputs : List TextPort
  outputs : List TextPort
  lines : List TextLine
deriving DecidableEq, Repr

/-- R66: the seven named checks of a netlist text. -/
inductive TextCheck where
  /-- An `expr` has not as many arguments as its operation has input ports. -/
  | arity
  /-- An argument, target or output port has not the width of what it is connected to. -/
  | width
  /-- A name is used that is no input port and no earlier line binds (a combinational loop is one such case). -/
  | definedBeforeUse
  /-- A name is bound twice, or an input port is bound. -/
  | singleAssignment
  /-- An output port is bound by no line. -/
  | outputsBound
  /-- An index is not below the width of the bus, or a sub-bus has its first index above its second. -/
  | indexInRange
  /-- An operation name is none of the 21. -/
  | knownOperation
deriving DecidableEq, Repr

end Sys2Proof
end

