-- ==== Sys2Proof/Machine/Elaborate.lean ====
section
/-! DEFINITION. From a netlist text (30_encoding.md R65) to the netlist it denotes (R64), by the seven checks of R66, each of
which refuses by its name. Lines are taken in textual order, the instances of a line innermost and leftmost first (R67,
R68; log 19). Which check reports first where several fail is the model's choice (log 13). -/

namespace Sys2Proof

/-- What each name bound so far stands for. -/
abbrev WireEnv := List (String × List Driver)

/-- R66 `defined_before_use`. -/
def findWire (env : WireEnv) (n : String) : Except TextCheck (List Driver) :=
  match env.lookup n with
  | some ds => .ok ds
  | none => .error .definedBeforeUse

/-- R66 `single_assignment`. -/
def bindWire (env : WireEnv) (n : String) (ds : List Driver) : Except TextCheck WireEnv :=
  if (env.lookup n).isSome then .error .singleAssignment else .ok ((n, ds) :: env)

/-- R65: the names of a bracketed target, one bit each. -/
def bindBits (env : WireEnv) : List String → List Driver → Except TextCheck WireEnv
  | [], [] => .ok env
  | n :: ns, d :: ds =>
    match bindWire env n [d] with
    | .ok env' => bindBits env' ns ds
    | .error c => .error c
  | _, _ => .error .width

/-- R65 `target`. -/
def bindTarget (env : WireEnv) (target : TextTarget) (out : List Driver) : Except TextCheck WireEnv :=
  match target with
  | .whole n => bindWire env n out
  | .bits ns => bindBits env ns out

/-- One more instance, behind the ones `made`: R66 `arity` and `width`; the wires of its output. -/
def placeInst (op : Op) (made : List Instr) (args : List (List Driver)) :
    Except TextCheck (List Instr × List Driver) :=
  if args.length = op.inputs.length then
    if h : args.map List.length = op.inputWidths then
      .ok (made ++ [Instr.ofPorts op ⟨args, h⟩], (List.range op.output.width).map (.cell made.length))
    else .error .width
  else .error .arity

mutual
/-- R65 `arg`: the drivers an argument stands for, and the instances with those nested in it added. -/
def elabArg (env : WireEnv) : TextArg → List Instr → Except TextCheck (List Instr × List Driver)
  | .whole n, made =>
    match findWire env n with
    | .ok ds => .ok (made, ds)
    | .error c => .error c
  | .bit n i, made =>
    match findWire env n with
    | .ok ds =>
      match ds[i]? with
      | some d => .ok (made, [d])
      | none => .error .indexInRange
    | .error c => .error c
  | .sub n lo hi, made =>
    match findWire env n with
    | .ok ds =>
      if lo ≤ hi ∧ hi < ds.length then .ok (made, (ds.drop lo).take (hi - lo + 1)) else .error .indexInRange
    | .error c => .error c
  | .const b, made => .ok (made, [.const b])
  | .zero16, made => .ok (made, (Bus.bits zero16).map .const)
  | .one16, made => .ok (made, (Bus.bits one16).map .const)
  | .bus bits, made =>
    match elabArgs env bits made with
    | .ok (made', dss) => if dss.all fun ds => ds.length == 1 then .ok (made', dss.flatten) else .error .width
    | .error c => .error c
  | .nested name args, made =>
    match Op.ofName? name with
    | some op =>
      match elabArgs env args made with
      | .ok (made', dss) => placeInst op made' dss
      | .error c => .error c
    | none => .error .knownOperation
/-- Arguments left to right. -/
def elabArgs (env : WireEnv) : TextArgs → List Instr → Except TextCheck (List Instr × List (List Driver))
  | .nil, made => .ok (made, [])
  | .cons a rest, made =>
    match elabArg env a made with
    | .ok (made', ds) =>
      match elabArgs env rest made' with
      | .ok (made'', dss) => .ok (made'', ds :: dss)
      | .error c => .error c
    | .error c => .error c
end

/-- R65 `line`: its instances, then its target bound. -/
def elabLine (env : WireEnv) (made : List Instr) (line : TextLine) : Except TextCheck (WireEnv × List Instr) :=
  match elabArg env (.nested line.op line.args) made with
  | .ok (made', out) =>
    match bindTarget env line.target out with
    | .ok env' => .ok (env', made')
    | .error c => .error c
  | .error c => .error c

/-- The lines in textual order. -/
def elabLines : WireEnv → List Instr → List TextLine → Except TextCheck (WireEnv × List Instr)
  | env, made, [] => .ok (env, made)
  | env, made, line :: rest =>
    match elabLine env made line with
    | .ok (env', made') => elabLines env' made' rest
    | .error c => .error c

/-- The input ports as names, numbered from `p`; two of one name are refused (log 13). -/
def bindInputs : WireEnv → Nat → List TextPort → Except TextCheck WireEnv
  | env, _, [] => .ok env
  | env, p, port :: rest =>
    match bindWire env port.name ((List.range port.width.toNat).map (.port p)) with
    | .ok env' => bindInputs env' (p + 1) rest
    | .error c => .error c

/-- R66 `outputs_bound` and `width` of the output ports. An output port has to be bound by a line, so a name that is an
input port does not serve. -/
def elabOutputs (env : WireEnv) (inputs : List String) : List TextPort → Except TextCheck (List OutPort)
  | [] => .ok []
  | port :: rest =>
    if inputs.contains port.name then .error .outputsBound
    else if (rest.map TextPort.name).contains port.name then .error .singleAssignment
    else
      match env.lookup port.name with
      | none => .error .outputsBound
      | some ds =>
        if ds.length = port.width.toNat then
          match elabOutputs env inputs rest with
          | .ok outs => .ok (⟨port.name, ds⟩ :: outs)
          | .error c => .error c
        else .error .width

/-- R65: a port of a text as a port of a netlist. -/
def TextPort.toPort (p : TextPort) : Port := ⟨p.name, p.width.toNat⟩

/-- R66: the netlist that a well-formed text denotes, or the check that fails. -/
def elaborate (t : TextNetlist) : Except TextCheck Netlist :=
  match bindInputs [] 0 t.inputs with
  | .ok env =>
    match elabLines env [] t.lines with
    | .ok (env', insts) =>
      match elabOutputs env' (t.inputs.map TextPort.name) t.outputs with
      | .ok outs => .ok ⟨t.inputs.map TextPort.toPort, insts, outs⟩
      | .error c => .error c
    | .error c => .error c
  | .error c => .error c

/-- R66: all seven checks pass. -/
def TextNetlist.wellFormed (t : TextNetlist) : Bool :=
  match elaborate t with
  | .ok _ => true
  | .error _ => false

/-- R68: the listing of a netlist, one operation index per instance. -/
def Netlist.listing (n : Netlist) : List (BitVec 5) := n.insts.map fun i => i.op.index

end Sys2Proof
end

