-- ==== Sys2Proof/Config.lean ====
section
/-! DEFINITION. What an implementation fixes and the spec leaves open: one constant, `T_NAND` (00_scope.md R9, log 14). -/

namespace Sys2Proof

/-- `T_NAND` (R9, D4): the delay of one `nand` cell, a non-negative real. OPEN: it has no body, so a claim that names it
holds for every delay. No rule about values depends on it and no step reads it. -/
opaque Config.tNand : NNReal

end Sys2Proof
end

