-- ==== Sys2Proof/Machine/Recipe.lean ====
section
/-! DEFINITION. The mandatory recipes as data (00_scope.md R10, 44_laws_and_structure.md R141, R146): for every operation but
`nand` a netlist over the operations of the recipe, one instance for each textual occurrence (R13, R142, D13), in the order
of the pseudocode of files 41 to 43. Port numbers are places in `Op.inputs`. -/

namespace Sys2Proof

/-- The `n` drivers `f 0` to `f (n-1)` as a port. -/
def Pins.of (n : Nat) (f : Nat → Driver) : Pins n := ⟨(List.range n).map f, by simp⟩

/-- The whole of input port `p`, `n` bits wide. -/
def portPins (n p : Nat) : Pins n := Pins.of n (.port p)

/-- The whole output of instance `k`, `n` bits wide. -/
def cellPins (n k : Nat) : Pins n := Pins.of n (.cell k)

/-- The constant bus `one16` (R26), sixteen tied wires. -/
def one16Pins : Pins 16 := Pins.of 16 fun i => .const (Bus.at one16 i)

/-- A recipe with the operation's own ports. -/
def Op.netlist (op : Op) (insts : List Instr) (drivers : List Driver) : Netlist :=
  ⟨op.inputs, insts, [⟨op.output.name, drivers⟩]⟩

/-- Sixteen parallel lanes (R13, R100): lane `i` of the output is the one output pin of instance `i`. -/
def Op.lanes (op : Op) (lane : Nat → Instr) : Netlist :=
  op.netlist ((List.range 16).map lane) ((List.range 16).map fun i => .cell i 0)

/-- R141: the recipe of an operation; `nand` has none (R75). -/
def recipe : Op → Option Netlist
  | .nand => none
  | .not => some (Op.not.netlist [.nand (.port 0 0) (.port 0 0)] [.cell 0 0])
  | .and => some (Op.and.netlist [.nand (.port 0 0) (.port 1 0), .not (.cell 0 0)] [.cell 1 0])
  | .or => some (Op.or.netlist [.not (.port 0 0), .not (.port 1 0), .nand (.cell 0 0) (.cell 1 0)] [.cell 2 0])
  | .nor => some (Op.nor.netlist [.or (.port 0 0) (.port 1 0), .not (.cell 0 0)] [.cell 1 0])
  | .xor => some (Op.xor.netlist
      [.nand (.port 0 0) (.port 1 0), .or (.port 0 0) (.port 1 0), .and (.cell 0 0) (.cell 1 0)] [.cell 2 0])
  | .mux => some (Op.mux.netlist
      [.not (.port 2 0), .and (.cell 0 0) (.port 0 0), .and (.port 2 0) (.port 1 0), .or (.cell 1 0) (.cell 2 0)]
      [.cell 3 0])
  | .dmux => some (Op.dmux.netlist
      [.not (.port 1 0), .and (.cell 0 0) (.port 0 0), .and (.port 1 0) (.port 0 0)] [.cell 1 0, .cell 2 0])
  | .not16 => some (Op.not16.lanes fun i => .not (.port 0 i))
  | .and16 => some (Op.and16.lanes fun i => .and (.port 0 i) (.port 1 i))
  | .or16 => some (Op.or16.lanes fun i => .or (.port 0 i) (.port 1 i))
  | .mux16 => some (Op.mux16.lanes fun i => .mux (.port 0 i) (.port 1 i) (.port 2 0))
  | .or8way => some (Op.or8way.netlist
      [.or (.port 0 0) (.port 0 1), .or (.port 0 2) (.port 0 3), .or (.port 0 4) (.port 0 5), .or (.port 0 6) (.port 0 7),
       .or (.cell 0 0) (.cell 1 0), .or (.cell 2 0) (.cell 3 0), .or (.cell 4 0) (.cell 5 0)] [.cell 6 0])
  | .mux4way16 => some (Op.mux4way16.netlist
      [.mux16 (portPins 16 0) (portPins 16 1) (.port 4 0), .mux16 (portPins 16 2) (portPins 16 3) (.port 4 0),
       .mux16 (cellPins 16 0) (cellPins 16 1) (.port 4 1)] (cellPins 16 2).drivers)
  | .mux8way16 => some (Op.mux8way16.netlist
      [.mux4way16 (portPins 16 0) (portPins 16 1) (portPins 16 2) (portPins 16 3) (portPins 2 8),
       .mux4way16 (portPins 16 4) (portPins 16 5) (portPins 16 6) (portPins 16 7) (portPins 2 8),
       .mux16 (cellPins 16 0) (cellPins 16 1) (.port 8 2)] (cellPins 16 2).drivers)
  | .dmux4way => some (Op.dmux4way.netlist
      [.dmux (.port 0 0) (.port 1 1), .dmux (.cell 0 0) (.port 1 0), .dmux (.cell 0 1) (.port 1 0)]
      [.cell 1 0, .cell 1 1, .cell 2 0, .cell 2 1])
  | .dmux8way => some (Op.dmux8way.netlist
      [.dmux (.port 0 0) (.port 1 2), .dmux4way (.cell 0 0) (portPins 2 1), .dmux4way (.cell 0 1) (portPins 2 1)]
      ((cellPins 4 1).drivers ++ (cellPins 4 2).drivers))
  | .halfAdder => some (Op.halfAdder.netlist
      [.xor (.port 0 0) (.port 1 0), .and (.port 0 0) (.port 1 0)] [.cell 0 0, .cell 1 0])
  | .fullAdder => some (Op.fullAdder.netlist
      [.xor (.port 0 0) (.port 1 0), .xor (.cell 0 0) (.port 2 0), .and (.port 0 0) (.port 1 0),
       .and (.port 1 0) (.port 2 0), .and (.port 2 0) (.port 0 0), .or (.cell 2 0) (.cell 3 0),
       .or (.cell 5 0) (.cell 4 0)] [.cell 1 0, .cell 6 0])
  | .add16 => some (Op.add16.lanes fun i =>
      .fullAdder (.port 0 i) (.port 1 i) (if i = 0 then .const false else .cell (i - 1) 1))
  | .inc16 => some (Op.inc16.netlist [.add16 (portPins 16 0) one16Pins] (cellPins 16 0).drivers)

/-- R141: how many direct instances of `sub` the recipe of `op` has. -/
def directInstances (op sub : Op) : Nat :=
  match recipe op with
  | some n => n.insts.countP fun i => i.op == sub
  | none => 0

/-- R110 and C7: the linear chain of seven `or`, which computes what `or8way` does and is not `or8way` (R146(3)). -/
def linearOr8 : Netlist :=
  Op.or8way.netlist
    [.or (.port 0 0) (.port 0 1), .or (.cell 0 0) (.port 0 2), .or (.cell 1 0) (.port 0 3), .or (.cell 2 0) (.port 0 4),
     .or (.cell 3 0) (.port 0 5), .or (.cell 4 0) (.port 0 6), .or (.cell 5 0) (.port 0 7)] [.cell 6 0]

end Sys2Proof
end

