-- ==== Sys2Proof/Machine/Expand.lean ====
section
/-! DEFINITION. The full expansion of an operation into `nand` instances (44_laws_and_structure.md R142), and what is counted
on it: NAND cells (R143), path lengths (R144, R145) and the settling-time bound (70_reset_and_hazards.md R188). -/

namespace Sys2Proof

/-- No recipe is nested deeper: `inc16`, `add16`, `full_adder`, `xor`, `or`, `not`, `nand`. -/
def recipeDepth : Nat := 8

/-- The instances of a recipe in turn, each expanded by `expandOp` behind the NAND cells made so far; `cells` are the wires
that the recipe's own earlier instances have become. -/
def expandInsts (expandOp : (op : Op) → List Instr → Ports Driver op.inputWidths → Option (List Instr × List Driver))
    (ports : List (List Driver)) :
    List Instr → List Instr → List (List Driver) → Option (List Instr × List (List Driver))
  | [], made, cells => some (made, cells)
  | i :: rest, made, cells =>
    match readPorts (Driver.read Driver.const ports cells) i.ports with
    | some args =>
      match expandOp i.op made args with
      | some (made', out) => expandInsts expandOp ports rest made' (cells ++ [out])
      | none => none
    | none => none

/-- R142: one instance of `op` on the wires `args`, expanded behind the cells `made`: all the cells, and the wires of its
output. Every occurrence gets cells of its own (D13). -/
def expandOp : Nat → (op : Op) → List Instr → Ports Driver op.inputWidths → Option (List Instr × List Driver)
  | 0, _, _, _ => none
  | _ + 1, .nand, made, args => some (made ++ [.nand (args.one 0) (args.one 1)], [.cell made.length 0])
  | fuel + 1, op, made, args =>
    match recipe op with
    | none => none
    | some n =>
      match expandInsts (expandOp fuel) args.lists n.insts made [] with
      | some (made', cells) =>
        match readAll (fun o => readAll (Driver.read Driver.const args.lists cells) o.drivers) n.outputs with
        | some outs => some (made', outs.flatten)
        | none => none
      | none => none

/-- The drivers of the ports `ws`, numbered from `p`, as wires. -/
def portDrivers : Nat → (ws : List Nat) → List (List Driver)
  | _, [] => []
  | p, w :: rest => (portPins w p).drivers :: portDrivers (p + 1) rest

theorem portDrivers_widths (p : Nat) (ws : List Nat) : (portDrivers p ws).map List.length = ws := by
  induction ws generalizing p with
  | nil => rfl
  | cons w rest ih => simp [portDrivers, ih, Pins.width]

/-- The operation's own input pins as wires. -/
def Op.ownPins (op : Op) : Ports Driver op.inputWidths := ⟨portDrivers 0 op.inputWidths, portDrivers_widths 0 _⟩

/-- R142: the full expansion of an operation, a netlist on the operation's own ports. -/
def expansion (op : Op) : Option Netlist :=
  match expandOp recipeDepth op [] op.ownPins with
  | some (insts, out) => some (op.netlist insts out)
  | none => none

/-- The recipes followed all the way down to `nand`, with `nand` read as `nandOn` and a constant as `const`: the one
evaluation of the derivation chain that values and path lengths share. -/
def derive {α : Type} (const : Bit → α) (nandOn : α → α → α) :
    Nat → (op : Op) → Ports α op.inputWidths → Option (List α)
  | 0, _, _ => none
  | _ + 1, .nand, args => some [nandOn (args.one 0) (args.one 1)]
  | fuel + 1, op, args =>
    match recipe op with
    | none => none
    | some n => (n.evalWith const (derive const nandOn fuel) args.lists).map List.flatten

/-- `nand` alone, for the evaluation of an expansion: no other operation stands in one. -/
def nandOnly {α : Type} (nandOn : α → α → α) : (op : Op) → Ports α op.inputWidths → Option (List α)
  | .nand, args => some [nandOn (args.one 0) (args.one 1)]
  | _, _ => none

/-- The same on every wire of the ports `ws`, or on those of each port. -/
def Ports.ofFn {α : Type} (ws : List Nat) (f : Nat → α) : Ports α ws :=
  ⟨ws.mapIdx fun p w => List.replicate w (f p), List.ext_getElem? fun k => by cases h : ws[k]? <;> simp [h]⟩

/-- R143: the NAND count, the sum over the direct instances. -/
def nandCountIn : Nat → Op → Nat
  | 0, _ => 0
  | fuel + 1, op =>
    match recipe op with
    | none => 1
    | some n => (n.insts.map fun i => nandCountIn fuel i.op).sum

/-- R143. -/
def nandCount (op : Op) : Nat := nandCountIn recipeDepth op

/-- R144: the length of the longest path to a `nand` output, given those to its inputs; `none` where no path leads there. -/
def pathNand : Option Nat → Option Nat → Option Nat
  | some a, some b => some (max a b + 1)
  | some a, none => some (a + 1)
  | none, some b => some (b + 1)
  | none, none => none

/-- R144: the longest path to each output pin, given the lengths `args` at which the paths stand at the input pins.
`fromConst` says whether a path may begin at a constant. -/
def pathLengths (fromConst : Bool) (op : Op) (args : Ports (Option Nat) op.inputWidths) : Option (List (Option Nat)) :=
  derive (fun _ => if fromConst then some 0 else none) pathNand recipeDepth op args

/-- R144: the depth of each output pin: paths begin at any input pin or constant. -/
def depths (op : Op) : Option (List (Option Nat)) :=
  pathLengths true op (Ports.ofFn op.inputWidths fun _ => some 0)

/-- R144: the longest path to each output pin from input port number `port` alone (log 18). -/
def depthsFrom (op : Op) (port : Nat) : Option (List (Option Nat)) :=
  pathLengths false op (Ports.ofFn op.inputWidths fun p => if p = port then some 0 else none)

/-- R144: the depth of the operation, the largest over its output pins. -/
def depth (op : Op) : Option Nat := (depths op).bind fun l => l.foldl (fun m d => pathMax m d) none
where
  /-- The longer of two paths. -/
  pathMax : Option Nat → Option Nat → Option Nat
    | some a, some b => some (max a b)
    | some a, none => some a
    | none, d => d

/-- R145: the depth of the carry `c_(i+1)` out of stage `i` of `add16`, and of its sum bit, read on the wires of the recipe. -/
def add16Stages : Option (List (List (Option Nat))) :=
  match recipe .add16 with
  | some n =>
    evalCells (fun _ => some 0) (derive (fun _ => some 0) pathNand recipeDepth)
      [List.replicate 16 (some 0), List.replicate 16 (some 0)] n.insts []
  | none => none

/-- R188: for a netlist, the largest sum of the depths of the instances along any path of instances, whether or not it leads to
an output port. -/
def Netlist.settlingDepth (n : Netlist) : Option Nat :=
  (evalCells (fun _ => 0)
    (fun op args => (depth op).map fun d => List.replicate op.output.width (args.lists.flatten.foldl max 0 + d))
    (n.inputs.map fun p => List.replicate p.width 0) n.insts []).map fun cells => cells.flatten.foldl max 0

/-- R188: a bound on the settling time of a path of this many cells, wires being delay-free (log 14). -/
def settlingBound (cells : Nat) : NNReal := cells • Config.tNand

end Sys2Proof
end

