-- ==== Sys2Proof/Machine/Schedule.lean ====
section
/-! DEFINITION. Evaluating the instances of a netlist in any order at all (10_state.md R31, 20_memory.md R50, R51): an instance
whose pins are all settled may be evaluated at any moment. -/

namespace Sys2Proof

/-- The level a driver carries where only some instances have settled: `known` has one entry per instance. -/
def Driver.readKnown (ports : List (List Bit)) (known : List (Option (List Bit))) : Driver → Option Bit
  | .const b => some b
  | .port p j => bitAt ports p j
  | .cell k j =>
    match known[k]? with
    | some (some v) => v[j]?
    | _ => none

/-- Instance number `k` is evaluated if all its pins are settled; else nothing happens. -/
def fire (insts : List Instr) (ports : List (List Bit)) (known : List (Option (List Bit))) (k : Nat) :
    List (Option (List Bit)) :=
  match insts[k]? with
  | some i =>
    match readPorts (Driver.readKnown ports known) i.ports with
    | some args => known.set k (some (i.op.fn args).bits)
    | none => known
  | none => known

/-- The instances evaluated in the order of `schedule`, from nothing settled. -/
def evalSchedule (insts : List Instr) (ports : List (List Bit)) (schedule : List Nat) : List (Option (List Bit)) :=
  schedule.foldl (fire insts ports) (List.replicate insts.length none)

/-- R31: an order in which every instance comes after the instances it reads. -/
def RespectsWires (insts : List Instr) (order : List Nat) : Prop :=
  ∀ done k rest i, order = done ++ k :: rest → insts[k]? = some i →
    ∀ port ∈ i.args, ∀ c j, Driver.cell c j ∈ port → c ∈ done

/-- R188: a path of instances, each but the first reading an output pin of the one before it. -/
def PathOfInstances (insts : List Instr) : List Nat → Prop
  | [] => True
  | [k] => k < insts.length
  | k :: l :: rest =>
    (∃ i, insts[l]? = some i ∧ ∃ port ∈ i.args, ∃ j, Driver.cell k j ∈ port) ∧ PathOfInstances insts (l :: rest)

end Sys2Proof
end

