-- ==== Sys2Proof/Machine/TextEval.lean ====
section
/-! DEFINITION. The meaning of a netlist text, straight from 30_encoding.md R67: the lines in textual order, each expression by
applying its operation's function to the values of its arguments, innermost first. A text that fails a check of R66 has no
meaning, and `evalText` answers nothing for it; the functions it calls are about the lines of a text that passes, and what they
would answer elsewhere means nothing (DESIGN CHOICE, log 21). -/

namespace Sys2Proof

/-- The values of the names bound so far. -/
abbrev ValueEnv := List (String × List Bit)

/-- The output value of an operation on the values of its arguments, which in a text that passes the checks have the widths of
its input ports. -/
def evalOp (op : Op) (vs : List (List Bit)) : Option (List Bit) :=
  if h : vs.map List.length = op.inputWidths then op.bits ⟨vs, h⟩ else none

mutual
/-- The value of an argument, index 0 first. -/
def evalArg (env : ValueEnv) : TextArg → Option (List Bit)
  | .whole n => env.lookup n
  | .bit n i =>
    match env.lookup n with
    | some v => (v[i]?).map fun b => [b]
    | none => none
  | .sub n lo hi =>
    match env.lookup n with
    | some v => if lo ≤ hi ∧ hi < v.length then some ((v.drop lo).take (hi - lo + 1)) else none
    | none => none
  | .const b => some [b]
  | .zero16 => some (Bus.bits zero16)
  | .one16 => some (Bus.bits one16)
  | .bus bits => (evalArgs env bits).map List.flatten
  | .nested name args =>
    match Op.ofName? name, evalArgs env args with
    | some op, some vs => evalOp op vs
    | _, _ => none
/-- Arguments left to right. -/
def evalArgs (env : ValueEnv) : TextArgs → Option (List (List Bit))
  | .nil => some []
  | .cons a rest =>
    match evalArg env a, evalArgs env rest with
    | some v, some vs => some (v :: vs)
    | _, _ => none
end

/-- The names of a target with their values, in a text that passes the checks: no name is bound before, and a bracketed target
has as many names as the result has bits (elsewhere: log 21). -/
def bindValue (env : ValueEnv) (target : TextTarget) (v : List Bit) : ValueEnv :=
  match target with
  | .whole n => (n, v) :: env
  | .bits ns => (ns.zip (v.map fun b => [b])) ++ env

/-- The lines in textual order. -/
def evalLines : ValueEnv → List TextLine → Option ValueEnv
  | env, [] => some env
  | env, line :: rest =>
    match evalArg env (.nested line.op line.args) with
    | some v => evalLines (bindValue env line.target v) rest
    | none => none

/-- The widths of a text's input ports. -/
def TextNetlist.inputWidths (t : TextNetlist) : List Nat := t.inputs.map fun p => p.width.toNat

/-- R67: the values of the output ports of a text that passes the checks, for given values of its input ports, which have
their widths (R25). R66: "no behaviour is defined" for a text that fails one, and none is answered (DESIGN CHOICE, log 21). -/
def evalText (t : TextNetlist) (ports : Ports Bit t.inputWidths) : Option (List (List Bit)) :=
  if t.wellFormed then
    match evalLines ((t.inputs.map TextPort.name).zip ports.lists) t.lines with
    | some env => readAll (fun p => env.lookup p.name) t.outputs
    | none => none
  else none

end Sys2Proof
end

