-- ==== Sys2Proof/Safety.lean ====
section
/-! DEFINITION. What claims call a correct evaluation, and a state that goes on. -/

namespace Sys2Proof.Machine

/-- 10_state.md R20, 70_reset_and_hazards.md R185: the cell's output is its operation's function of the levels at its pins,
`before` being the outputs of the earlier cells. -/
def Cell.Correct (inputs before : List (List Bit)) (c : Cell) : Prop :=
  ∃ args, readPorts (Driver.read id inputs before) c.inst.ports = some args ∧ c.out = c.inst.op.fn args

/-- Every cell is correct, each reading only the ones before it. -/
def CellsCorrect (inputs : List (List Bit)) : List (List Bit) → List Cell → Prop
  | _, [] => True
  | before, c :: rest => c.Correct inputs before ∧ CellsCorrect inputs (before ++ [c.out.bits]) rest

/-- The evaluation so far is right: every settled value is the one its wiring and the present inputs give (R20, R67). -/
def State.Settled (s : State) : Prop := CellsCorrect s.inputs.lists [] s.settled

/-- The instances to come decode, and each reads only input bits that exist and earlier instances (30_encoding.md R64). -/
def pendingReady (ports : List Nat) : List Nat → List RawInst → Bool
  | _, [] => true
  | cells, r :: rest =>
    match decode r with
    | .ok i => i.wellFormed ports cells && pendingReady ports (cells ++ [i.op.output.width]) rest
    | .error _ => false

/-- What is left of the netlist is well formed over what is driven and settled. -/
def State.ready (s : State) : Bool := pendingReady s.inputWidths (s.settled.map fun c => c.inst.op.output.width) s.pending

/-- No run from here stops: every number of steps answers a next state (70_reset_and_hazards.md R190). Past the last instance
the steps leave the state as it is (DESIGN CHOICE, log 4). -/
def State.Safe (s : State) : Prop := ∀ k, ∃ t, steps k s = .next t

end Sys2Proof.Machine
end

