-- ==== Sys2Proof/Certificates/Slice0/Obligations.lean ====
section
/-! DEFINITION. The statements for the provers. In the statements about one operation, `s.settle i out` is the state in which the
instance has become the next numbered one with output `out` and nothing else differs; `FrameOfAnInstance` says so in full. -/

open Sys2Proof Sys2Proof.Machine

/-! The operations, rule by rule. The index of each (the spec's decision D8) is in `OperationTable`, and what the rules mark as
derived is in `DerivedFactsOfTheGates`. -/

/-- R75: the truth table, and both inputs on one wire. -/
def Obligations.NandOperation : Prop :=
  (∀ (s : State) (a b : Driver) (x y : Bit), s.bit a = some x → s.bit b = some y →
    exec (.nand a b) s =
      .next (s.settle (.nand a b) (Bus.one (if x = true ∧ y = true then false else true)))) ∧
  ∀ x, Gate.nand x x = !x

/-- R81 to R85: recipe and contract of the five one-output gates. -/
def Obligations.ScalarGateOperations : Prop :=
  (∀ (s : State) (a : Driver) (x : Bit), s.bit a = some x →
    exec (.not a) s = .next (s.settle (.not a) (Bus.one !x))) ∧
  (∀ (s : State) (a b : Driver) (x y : Bit), s.bit a = some x → s.bit b = some y →
    exec (.and a b) s = .next (s.settle (.and a b) (Bus.one (if x = true ∧ y = true then true else false))) ∧
    exec (.or a b) s = .next (s.settle (.or a b) (Bus.one (if x = false ∧ y = false then false else true))) ∧
    exec (.nor a b) s = .next (s.settle (.nor a b) (Bus.one (if x = false ∧ y = false then true else false))) ∧
    exec (.xor a b) s = .next (s.settle (.xor a b) (Bus.one (if x = y then false else true)))) ∧
  (∀ x y, Gate.not x = Gate.nand x x ∧ Gate.and x y = Gate.not (Gate.nand x y) ∧
    Gate.or x y = Gate.nand (Gate.not x) (Gate.not y) ∧ Gate.nor x y = Gate.not (Gate.or x y) ∧
    Gate.xor x y = Gate.and (Gate.nand x y) (Gate.or x y)) ∧
  ∀ x, Gate.not (Gate.not x) = x

/-- R86: recipe (select term first), and the choice. -/
def Obligations.MuxOperation : Prop :=
  (∀ (s : State) (a b sel : Driver) (x y k : Bit), s.bit a = some x → s.bit b = some y → s.bit sel = some k →
    exec (.mux a b sel) s = .next (s.settle (.mux a b sel) (Bus.one (if k = true then y else x)))) ∧
  (∀ x y k, Gate.mux x y k = Gate.or (Gate.and (Gate.not k) x) (Gate.and k y)) ∧ (∀ x k, Gate.mux x x k = x)

/-- R87: recipe and routing. -/
def Obligations.DmuxOperation : Prop :=
  (∀ (s : State) (x sel : Driver) (v k : Bit), s.bit x = some v → s.bit sel = some k →
    exec (.dmux x sel) s =
      .next (s.settle (.dmux x sel) (if k = true then Bus.lit [false, v] else Bus.lit [v, false]))) ∧
  (∀ v k, (Gate.dmux v k).bits = [Gate.and (Gate.not k) v, Gate.and k v])

/-- R100: each lane of a lift is the scalar operation on that lane, the scalar select shared by all lanes; the structure is
sixteen instances of the scalar operation. -/
def Obligations.LiftsAreLaneWise : Prop :=
  (∀ (a b : Bits16) (k : Bit) (i : Nat), i < 16 →
    Bus.at (Gate.not16 a) i = Gate.not (Bus.at a i) ∧
    Bus.at (Gate.and16 a b) i = Gate.and (Bus.at a i) (Bus.at b i) ∧
    Bus.at (Gate.or16 a b) i = Gate.or (Bus.at a i) (Bus.at b i) ∧
    Bus.at (Gate.mux16 a b k) i = Gate.mux (Bus.at a i) (Bus.at b i) k) ∧
  ∀ p ∈ [(Op.not16, Op.not), (Op.and16, Op.and), (Op.or16, Op.or), (Op.mux16, Op.mux)],
    (recipe p.1).map (fun n => n.insts.map Instr.op) = some (List.replicate 16 p.2)

/-- R101 to R104: the bitwise contract, and the corner cases. -/
def Obligations.LaneWiseOperations : Prop :=
  (∀ (s : State) (x : Pins 16) (v : Bits16), s.bus x = some v →
    exec (.not16 x) s = .next (s.settle (.not16 x) (~~~v : Bits16))) ∧
  (∀ (s : State) (a b : Pins 16) (v w : Bits16), s.bus a = some v → s.bus b = some w →
    exec (.and16 a b) s = .next (s.settle (.and16 a b) (v &&& w : Bits16)) ∧
    exec (.or16 a b) s = .next (s.settle (.or16 a b) (v ||| w : Bits16))) ∧
  (∀ (s : State) (a b : Pins 16) (sel : Driver) (v w : Bits16) (k : Bit),
    s.bus a = some v → s.bus b = some w → s.bit sel = some k →
    exec (.mux16 a b sel) s =
      .next (s.settle (.mux16 a b sel) (if k = true then w else v : Bits16))) ∧
  (∀ v : Bits16, Gate.not16 (Gate.not16 v) = v ∧
    Gate.and16 v zero16 = zero16 ∧ Gate.and16 v (encodeNat 16 0xFFFF) = v ∧ Gate.and16 v v = v ∧
    Gate.or16 v zero16 = v ∧ Gate.or16 v (encodeNat 16 0xFFFF) = encodeNat 16 0xFFFF ∧ Gate.or16 v v = v ∧
    ∀ k, Gate.mux16 v v k = v) ∧
  (∀ v w, Gate.and16 v w = Gate.and16 w v ∧ Gate.or16 v w = Gate.or16 w v) ∧
  Gate.not16 zero16 = encodeNat 16 0xFFFF ∧ Gate.not16 (encodeNat 16 0xFFFF) = zero16

/-- R105: the balanced tree, and the contract. -/
def Obligations.Or8wayOperation : Prop :=
  (∀ (s : State) (x : Pins 8) (v : Bits8), s.bus x = some v →
    ∃ out : Bit, exec (.or8way x) s = .next (s.settle (.or8way x) (Bus.one out)) ∧
      (out = false ↔ ∀ i, i < 8 → Bus.at v i = false)) ∧
  (∀ v : Bits8, Gate.or8way v =
    Gate.or
      (Gate.or (Gate.or (Bus.at v 0) (Bus.at v 1)) (Gate.or (Bus.at v 2) (Bus.at v 3)))
      (Gate.or (Gate.or (Bus.at v 4) (Bus.at v 5)) (Gate.or (Bus.at v 6) (Bus.at v 7))))

/-- R106: the tree, and the selected input. -/
def Obligations.Mux4way16Operation : Prop :=
  (∀ (s : State) (a b c d : Pins 16) (sel : Pins 2) (va vb vc vd : Bits16) (k : Bits2),
    s.bus a = some va → s.bus b = some vb → s.bus c = some vc → s.bus d = some vd → s.bus sel = some k →
    ∃ out : Bits16, [va, vb, vc, vd][(Bus.at k 0).toNat + 2 * (Bus.at k 1).toNat]? = some out ∧
      exec (.mux4way16 a b c d sel) s = .next (s.settle (.mux4way16 a b c d sel) out)) ∧
  (∀ a b c d k, Gate.mux4way16 a b c d k =
    Gate.mux16 (Gate.mux16 a b (Bus.at k 0)) (Gate.mux16 c d (Bus.at k 0)) (Bus.at k 1))

/-- R107: the tree, and the selected input (the contract of the rule is the spec's own derivation from the tree). -/
def Obligations.Mux8way16Operation : Prop :=
  (∀ (s : State) (a b c d e f g h : Pins 16) (sel : Pins 3) (va vb vc vd ve vf vg vh : Bits16) (k : Bits3),
    s.bus a = some va → s.bus b = some vb → s.bus c = some vc → s.bus d = some vd → s.bus e = some ve →
    s.bus f = some vf → s.bus g = some vg → s.bus h = some vh → s.bus sel = some k →
    ∃ out : Bits16,
      [va, vb, vc, vd, ve, vf, vg, vh][(Bus.at k 0).toNat + 2 * (Bus.at k 1).toNat + 4 * (Bus.at k 2).toNat]? =
        some out ∧
      exec (.mux8way16 a b c d e f g h sel) s =
        .next (s.settle (.mux8way16 a b c d e f g h sel) out)) ∧
  (∀ a b c d e f g h k, Gate.mux8way16 a b c d e f g h k =
    Gate.mux16 (Gate.mux4way16 a b c d (Bus.sub k 0 2)) (Gate.mux4way16 e f g h (Bus.sub k 0 2)) (Bus.at k 2))

/-- R108, R109, the contract only (the decomposition is the spec's own decision D7, log 9): branch `j` is `x` where the
selector encodes `j`, and `0` elsewhere. -/
def Obligations.DmuxTreesRouteToTheSelectedBranch : Prop :=
  (∀ (s : State) (x : Driver) (sel : Pins 2) (v : Bit) (k : Bits2), s.bit x = some v → s.bus sel = some k →
    exec (.dmux4way x sel) s = .next (s.settle (.dmux4way x sel)
      (Bus.build 4 fun j => if j = (Bus.at k 0).toNat + 2 * (Bus.at k 1).toNat then v else false))) ∧
  (∀ (s : State) (x : Driver) (sel : Pins 3) (v : Bit) (k : Bits3), s.bit x = some v → s.bus sel = some k →
    exec (.dmux8way x sel) s = .next (s.settle (.dmux8way x sel)
      (Bus.build 8 fun j =>
        if j = (Bus.at k 0).toNat + 2 * (Bus.at k 1).toNat + 4 * (Bus.at k 2).toNat then v else false)))

/-- R123: recipe, and the count of ones. -/
def Obligations.HalfAdderOperation : Prop :=
  (∀ (s : State) (a b : Driver) (x y : Bit), s.bit a = some x → s.bit b = some y →
    ∃ sum carry : Bit,
      exec (.halfAdder a b) s = .next (s.settle (.halfAdder a b) (Bus.lit [sum, carry])) ∧
      sum = Gate.xor x y ∧ carry = Gate.and x y ∧
      sum.toNat + 2 * carry.toNat = x.toNat + y.toNat ∧ ¬(sum = true ∧ carry = true)) ∧
  (∀ x y, Gate.halfAdder x y = Gate.halfAdder y x)

/-- R124: recipe with its argument orders, and the count of ones. -/
def Obligations.FullAdderOperation : Prop :=
  (∀ (s : State) (a b c : Driver) (x y z : Bit), s.bit a = some x → s.bit b = some y → s.bit c = some z →
    ∃ sum carry : Bit,
      exec (.fullAdder a b c) s = .next (s.settle (.fullAdder a b c) (Bus.lit [sum, carry])) ∧
      sum = Gate.xor (Gate.xor x y) z ∧
      carry = Gate.or (Gate.or (Gate.and x y) (Gate.and y z)) (Gate.and z x) ∧
      sum.toNat + 2 * carry.toNat = x.toNat + y.toNat + z.toNat) ∧
  (∀ x y z, Gate.fullAdder x y false = Gate.halfAdder x y ∧ Gate.fullAdder x y z = Gate.fullAdder y x z ∧
    Gate.fullAdder x y z = Gate.fullAdder x z y)

/-- R125: the ripple of sixteen full adders from a carry of `0`, the sum modulo 65536 with `c_16` discarded, and the corner
cases. -/
def Obligations.Add16Operation : Prop :=
  (∀ (s : State) (a b : Pins 16) (v w : Bits16), s.bus a = some v → s.bus b = some w →
    ∃ (out : Bits16) (carry : Nat → Bit),
      exec (.add16 a b) s = .next (s.settle (.add16 a b) out) ∧
      carry 0 = false ∧
      (∀ i, i < 16 → Gate.fullAdder (Bus.at v i) (Bus.at w i) (carry i) = Bus.lit [Bus.at out i, carry (i + 1)]) ∧
      decodeNat out = (decodeNat v + decodeNat w) % 65536) ∧
  (∀ v w : Bits16, Gate.add16 v zero16 = v ∧ Gate.add16 v w = Gate.add16 w v ∧
    decodeNat (Gate.add16 v v) = 2 * decodeNat v % 65536) ∧
  Gate.add16 (encodeNat 16 0x8000) (encodeNat 16 0x8000) = encodeNat 16 0x0000 ∧
  Gate.add16 (encodeNat 16 0xFFFF) (encodeNat 16 0x0001) = encodeNat 16 0x0000 ∧
  Gate.add16 (encodeNat 16 0xFFFF) (encodeNat 16 0xFFFF) = encodeNat 16 0xFFFE ∧
  Gate.add16 (encodeNat 16 0x7FFF) (encodeNat 16 0x0001) = encodeNat 16 0x8000

/-- R126: the recipe, the increment modulo 65536, and the corner cases. -/
def Obligations.Inc16Operation : Prop :=
  (∀ (s : State) (a : Pins 16) (v : Bits16), s.bus a = some v →
    ∃ out : Bits16, exec (.inc16 a) s = .next (s.settle (.inc16 a) out) ∧
      out = Gate.add16 v one16 ∧ decodeNat out = (decodeNat v + 1) % 65536) ∧
  Gate.inc16 (encodeNat 16 0xFFFF) = encodeNat 16 0x0000 ∧ Gate.inc16 (encodeNat 16 0x7FFF) = encodeNat 16 0x8000 ∧
  Gate.inc16 (encodeNat 16 0x00FF) = encodeNat 16 0x0100 ∧ Gate.inc16 zero16 = one16

/-- What the rules of the operations mark as derived by the spec: symmetry and corner cases of the scalar gates, the number
`not16` gives, and `decode(out) + 65536 * c_16` of `add16`, `c_16` being the carry behind the sixteenth stage. -/
def Obligations.DerivedFactsOfTheGates : Prop :=
  (∀ x y, Gate.nand x y = Gate.nand y x ∧ Gate.nor x y = Gate.nor y x ∧ Gate.xor x y = Gate.xor y x) ∧
  (∀ x, Gate.and x x = x ∧ Gate.and x false = false ∧ Gate.and x true = x ∧ Gate.or x x = x ∧ Gate.or x false = x ∧
    Gate.or x true = true ∧ Gate.nor x x = Gate.not x ∧ Gate.xor x x = false ∧ Gate.xor x false = x ∧
    Gate.xor x true = Gate.not x) ∧
  (∀ v k, Gate.or (Bus.at (Gate.dmux v k) 0) (Bus.at (Gate.dmux v k) 1) = v) ∧
  (∀ v : Bits16, decodeNat (Gate.not16 v) = 65535 - decodeNat v) ∧
  (∀ x y z, decodeNat (Gate.halfAdder x y) = x.toNat + y.toNat ∧
    decodeNat (Gate.fullAdder x y z) = x.toNat + y.toNat + z.toNat) ∧
  (∀ v w : Bits16, decodeNat (Gate.add16 v w) + 65536 * (Gate.ripple v w 16).2.toNat = decodeNat v + decodeNat w)

/-! Laws of values -/

/-- R135, R161: addition modulo 2^16, with nothing that records a wrap: whatever the sum, the state that follows differs by
the sixteen result bits alone. -/
def Obligations.AdditionIsModulo65536 : Prop :=
  (∀ u v : Nat, u < 65536 → v < 65536 →
    decodeNat (Gate.add16 (encodeNat 16 u) (encodeNat 16 v)) = (u + v) % 65536 ∧
    (65536 ≤ u + v → decodeNat (Gate.add16 (encodeNat 16 u) (encodeNat 16 v)) = u + v - 65536)) ∧
  (∀ (s : State) (a b : Pins 16) (u v : Nat), u < 65536 → v < 65536 →
    s.bus a = some (encodeNat 16 u) → s.bus b = some (encodeNat 16 v) →
    exec (.add16 a b) s = .next (s.settle (.add16 a b) (encodeNat 16 ((u + v) % 65536))))

/-- R136. -/
def Obligations.IncrementIsModulo65536 : Prop :=
  (∀ u : Nat, u < 65536 → decodeNat (Gate.inc16 (encodeNat 16 u)) = (u + 1) % 65536) ∧
  Gate.inc16 (encodeNat 16 65535) = encodeNat 16 0

/-- The two's-complement reading (the spec's own derivation in its arithmetic laws): congruent always, equal where the
sum can be represented. -/
def Obligations.AdditionReadAsTwosComplement : Prop :=
  ∀ a b : Bits16,
    (sdecode (Gate.add16 a b) - (sdecode a + sdecode b)) % 65536 = 0 ∧
    (-32768 ≤ sdecode a + sdecode b → sdecode a + sdecode b ≤ 32767 →
      sdecode (Gate.add16 a b) = sdecode a + sdecode b)

/-- R138, with the consequences the spec derives: identity, commutativity, associativity, the cycle of `inc16`, and
complement plus one. -/
def Obligations.AdditionIsACommutativeGroup : Prop :=
  (∀ a, Gate.add16 a zero16 = a ∧ Gate.add16 zero16 a = a) ∧ (∀ a b, Gate.add16 a b = Gate.add16 b a) ∧
  (∀ a b c, Gate.add16 a (Gate.add16 b c) = Gate.add16 (Gate.add16 a b) c) ∧
  (∀ a, Gate.inc16^[65536] a = a) ∧ (∀ a, Gate.add16 a (Gate.inc16 (Gate.not16 a)) = zero16)

/-- R140: the Boolean laws the document requires. -/
def Obligations.BooleanLaws : Prop :=
  (∀ a b, Gate.not (Gate.not a) = a ∧ Gate.and a b = Gate.and b a ∧ Gate.or a b = Gate.or b a ∧
    Gate.xor a b = Gate.xor b a ∧ Gate.nor a b = Gate.not (Gate.or a b) ∧
    Gate.not (Gate.and a b) = Gate.or (Gate.not a) (Gate.not b) ∧
    Gate.not (Gate.or a b) = Gate.and (Gate.not a) (Gate.not b)) ∧
  (∀ (a b : Bits16) (k : Bit) (i : Nat), i < 16 →
    Bus.at (Gate.not16 a) i = Gate.not (Bus.at a i) ∧
    Bus.at (Gate.and16 a b) i = Gate.and (Bus.at a i) (Bus.at b i) ∧
    Bus.at (Gate.or16 a b) i = Gate.or (Bus.at a i) (Bus.at b i) ∧
    Bus.at (Gate.mux16 a b k) i = Gate.mux (Bus.at a i) (Bus.at b i) k)

/-- The caller's conversions (the spec derives the formulas from the bit order): a sum of powers of two, and inverse
bijections between the numbers below `2^n` and the buses of width `n`. -/
def Obligations.EncodeAndDecodeAreInverse : Prop :=
  ∀ n : Nat,
    (∀ v : Bus n, decodeNat v = ((List.range n).map fun i => (Bus.at v i).toNat * 2 ^ i).sum ∧ decodeNat v < 2 ^ n ∧
      encodeNat n (decodeNat v) = v) ∧
    (∀ u : Nat, u < 2 ^ n → decodeNat (encodeNat n u) = u ∧
      ∀ i, i < n → (Bus.at (encodeNat n u) i).toNat = u / 2 ^ i % 2)

/-- Every pattern of a selector is legal and selects an input or a branch of its own, the one its number names (the spec derives
which input of `mux8way16` that is from its recipe). -/
def Obligations.EverySelectorPatternSelects : Prop :=
  (∀ v w, Gate.mux v w false = v ∧ Gate.mux v w true = w) ∧
  (∀ v w, Gate.mux16 v w false = v ∧ Gate.mux16 v w true = w) ∧
  (∀ v, (Gate.dmux v false).bits = [v, false] ∧ (Gate.dmux v true).bits = [false, v]) ∧
  (∀ k, k < 4 → ∃ sel : Bits2, selectorValue sel = k ∧
    (∀ a b c d, [a, b, c, d][k]? = some (Gate.mux4way16 a b c d sel)) ∧
    ∀ v j, j < 4 → Bus.at (Gate.dmux4way v sel) j = if j = k then v else false) ∧
  (∀ k, k < 8 → ∃ sel : Bits3, selectorValue sel = k ∧
    (∀ a b c d e f g h, [a, b, c, d, e, f, g, h][k]? = some (Gate.mux8way16 a b c d e f g h sel)) ∧
    ∀ v j, j < 8 → Bus.at (Gate.dmux8way v sel) j = if j = k then v else false) ∧
  (∀ sel : Bits2, selectorValue sel < 4) ∧ (∀ sel : Bits3, selectorValue sel < 8)

/-- Demultiplexers mirror multiplexers (a rule the spec derives from the operations): `or8way` of `dmux8way` is the input,
and a lane sent through a demultiplexer comes back through the multiplexer with the same selector. -/
def Obligations.DemultiplexersMirrorMultiplexers : Prop :=
  (∀ x sel, Gate.or8way (Gate.dmux8way x sel) = x) ∧
  (∀ (x : Bit) (sel : Bits2) (lane : Nat), lane < 16 →
    ∀ a b c d : Bits16, (∀ j (v : Bits16), [a, b, c, d][j]? = some v → Bus.at v lane = Bus.at (Gate.dmux4way x sel) j) →
      Bus.at (Gate.mux4way16 a b c d sel) lane = x) ∧
  (∀ (x : Bit) (sel : Bits3) (lane : Nat), lane < 16 →
    ∀ a b c d e f g h : Bits16,
      (∀ j (v : Bits16), [a, b, c, d, e, f, g, h][j]? = some v → Bus.at v lane = Bus.at (Gate.dmux8way x sel) j) →
      Bus.at (Gate.mux8way16 a b c d e f g h sel) lane = x)

/-! Encoding -/

/-- The 21 operations: name, index and format (the spec's decisions D8 and D2), layer, input ports and output port; the
index names the operation, and 21 to 31 name none. -/
def Obligations.OperationTable : Prop :=
  (Op.all.map fun op => (op.name, op.index, op.layer, op.format)) =
    [("nand", 0b00000#5, .l0, .g2), ("not", 0b00001#5, .l1, .g1), ("and", 0b00010#5, .l1, .g2),
     ("or", 0b00011#5, .l1, .g2), ("nor", 0b00100#5, .l1, .g2), ("xor", 0b00101#5, .l1, .g2),
     ("mux", 0b00110#5, .l1, .m1), ("dmux", 0b00111#5, .l1, .x1), ("not16", 0b01000#5, .l2, .w1),
     ("and16", 0b01001#5, .l2, .w2), ("or16", 0b01010#5, .l2, .w2), ("mux16", 0b01011#5, .l2, .wm),
     ("or8way", 0b01100#5, .l2, .r8), ("mux4way16", 0b01101#5, .l2, .wm4), ("mux8way16", 0b01110#5, .l2, .wm8),
     ("dmux4way", 0b01111#5, .l2, .x4), ("dmux8way", 0b10000#5, .l2, .x8), ("half_adder", 0b10001#5, .l3, .a2),
     ("full_adder", 0b10010#5, .l3, .a3), ("add16", 0b10011#5, .l3, .w2), ("inc16", 0b10100#5, .l3, .w1)] ∧
  (∀ op : Op, op ∈ Op.all ∧ Op.ofIndex? op.index = some op ∧ Op.ofName? op.name = some op ∧
    op.format.inputWidths = op.inputWidths ∧ op.format.outputWidth = op.output.width) ∧
  (∀ index : BitVec 5, 21 ≤ index.toNat → Op.ofIndex? index = none)

/-- The index table (the spec's decision D8): sanity, a few of its rows as words of the opcode table, every pin tied to
`0` (log 6). -/
def Obligations.TableWordsDecode : Prop :=
  decodeTableWord 8 0x00 = some (.nand (.const false) (.const false)) ∧
  decodeTableWord 8 0x01 = some (.not (.const false)) ∧
  decodeTableWord 8 0x06 = some (.mux (.const false) (.const false) (.const false)) ∧
  decodeTableWord 8 0x10 = some (.dmux8way (.const false) ⟨[.const false, .const false, .const false], rfl⟩) ∧
  decodeTableWord 8 0x12 = some (.fullAdder (.const false) (.const false) (.const false)) ∧
  decodeTableWord 8 0x15 = none ∧ decodeTableWord 8 0x1F = none

/-- Every instance is read back from its encoding, with every driver of every pin. -/
def Obligations.DecodeInvertsEncode : Prop := ∀ i : Instr, decode (encode i) = .ok i

/-- A raw instance that decodes is the encoding of what it decodes to: no instance has two raw forms. That bits 7 to 5 of a
word are `0` is the model's choice (log 5). -/
def Obligations.EncodeInvertsDecode : Prop := ∀ (r : RawInst) (i : Instr), decode r = .ok i → encode i = r

/-- The decoder is total (the spec's decision D8 numbers the operations; a word of 32 or more is the model's choice, log 5): a
raw instance whose word is an operation's index decodes to that operation with its own arguments, and every other one is
refused by name. -/
def Obligations.DecodeAcceptsExactlyTheOperations : Prop :=
  ∀ r : RawInst,
    (r.word.toNat ≥ 21 → decode r = .error (.noSuchOperation r.word)) ∧
    (r.word.toNat < 21 → ∃ i, decode r = .ok i ∧ i.op.index.toNat = r.word.toNat ∧ i.args = r.args.lists)

/-- Widths are structural: what a raw instance, a settled cell and the input levels hold has, in every state, the widths of
the ports. -/
def Obligations.WidthsAreStructural : Prop :=
  (∀ (r : RawInst) (op : Op), r.word.toNat = op.index.toNat → r.args.lists.map List.length = op.inputWidths) ∧
  (∀ (s : State) (c : Cell), c ∈ s.settled →
    c.inst.args.map List.length = c.inst.op.inputWidths ∧ c.out.bits.length = c.inst.op.output.width) ∧
  (∀ (s : State), s.inputs.lists.map List.length = s.ports.map Port.width) ∧
  (∀ (op : Op) (v : Ports Bit op.inputWidths), (op.fn v).bits.length = op.output.width)

/-- A step decodes the next instance and runs it, past which the pending list has moved; a word that names no operation is
refused (from 32 up by the model's choice of the word's upper bits, log 5); nothing is fetched where none is pending, and the
state stays (the model's choice, log 4). -/
def Obligations.StepRunsTheDecodedInstance : Prop :=
  ∀ s : State,
    (∀ r rest i, s.pending = r :: rest → decode r = .ok i → step s = exec i { s with pending := rest }) ∧
    (∀ r rest, s.pending = r :: rest → r.word.toNat ≥ 21 → step s = .refused (.noSuchOperation r.word)) ∧
    (s.pending = [] → step s = .next s)

/-- What any instance leaves alone: the ports and inputs, the wiring still to come, the output ports, every cell settled before
and every level that was there; it adds exactly one cell, with its own wiring. -/
def Obligations.FrameOfAnInstance : Prop :=
  ∀ (i : Instr) (s t : State), exec i s = .next t →
    (∃ out, t = { s with settled := s.settled ++ [⟨i, out⟩] } ∧
      ∀ j, t.level (.cell s.settled.length j) = out.bits[j]?) ∧
    (∀ d b, s.level d = some b → t.level d = some b)

/-- R160: on driven pins every operation completes, whatever their levels, and no operation raises anything. -/
def Obligations.NoOperationFails : Prop :=
  (∀ (i : Instr) (s : State), (∀ port ∈ i.args, ∀ d ∈ port, (s.level d).isSome) →
    ∃ out, exec i s = .next (s.settle i out)) ∧
  (∀ (i : Instr) (s : State) (f : Fault), exec i s ≠ .fault f) ∧ (∀ (s : State) (f : Fault), step s ≠ .fault f)

/-- An input pin without a settled driver is refused, and that is the one refusal of an instance (the spec's decision D6;
log 7). -/
def Obligations.UndrivenPinsAreRefused : Prop :=
  ∀ (i : Instr) (s : State),
    ((∃ port ∈ i.args, ∃ d ∈ port, s.level d = none) → exec i s = .refused .undrivenPin) ∧
    (∀ r, exec i s = .refused r → r = .undrivenPin ∧ ∃ port ∈ i.args, ∃ d ∈ port, s.level d = none)

/-- Purity: an output is a function of the levels at the instance's own pins, and of nothing else in the state. -/
def Obligations.OutputsDependOnlyOnThePins : Prop :=
  ∀ (i : Instr) (s t : State), (∀ port ∈ i.args, ∀ d ∈ port, s.level d = t.level d) →
    ∀ out, exec i s = .next (s.settle i out) → exec i t = .next (t.settle i out)

/-- The block's state is the unit type, no use of an operation changes what another one answers, and a block answers every
use in a row with its netlist's value for the inputs of that use alone. -/
def Obligations.TheBlockHoldsNoState : Prop :=
  (∀ b c : BlockState, b = c) ∧
  (∀ (op other : Op) (b : BlockState) (v : Ports Bit op.inputWidths) (w : Ports Bit other.inputWidths),
    op.use (other.use b w).1 v = (b, op.fn v)) ∧
  (∀ (k : Block) (b : BlockState) (inputs : List (Ports Bit k.netlist.inputWidths)),
    k.uses b inputs = (b, inputs.map k.netlist.eval)) ∧
  ∀ s t : State, step s = .next t → t.block = s.block

/-- Each meaning is its operation's total function, as netlists, recipes and texts apply it, of the levels at its pins. -/
def Obligations.MeaningsAgreeWithTheFunctions : Prop :=
  ∀ (i : Instr) (s : State), exec i s = s.conclude i ((readPorts s.level i.ports).map i.op.fn)

/-- No step changes which instances exist or how they are connected, what the ports are and what drives them, or what the
output ports read. -/
def Obligations.WiringIsFixed : Prop :=
  ∀ s t : State, step s = .next t →
    t.wiring = s.wiring ∧ t.ports = s.ports ∧ t.inputs.lists = s.inputs.lists ∧ t.outputs = s.outputs

/-! Invariants and runs -/

/-- The evaluation stays correct: if every settled value is the one its wiring and the inputs give, so it is after a
step. -/
def Obligations.StepKeepsTheEvaluationCorrect : Prop := ∀ s t : State, s.Settled → step s = .next t → t.Settled

/-- The invariants hold at reset (the model's reset, log 3), where there is nothing settled and nothing to come. -/
def Obligations.ResetIsCorrectAndReady : Prop :=
  State.reset.Settled ∧ State.reset.ready = true ∧ State.reset.wiring = [] ∧ State.reset.ports = []

/-- A state whose remaining wiring is well formed over what is driven never stops, and stays one. That a step with nothing
pending answers the state itself, so that every number of steps answers a next state, is the model's choice (log 4): the spec
has no run and no end of one. -/
def Obligations.ReadyStatesNeverStop : Prop :=
  ∀ s : State, s.ready = true → (∃ t, step s = .next t ∧ t.ready = true) ∧ s.Safe

/-- A well-formed netlist with values for its input ports has a value, with the widths of its output ports. -/
def Obligations.NetlistsHaveAValue : Prop :=
  ∀ (n : Netlist) (ports : Ports Bit n.inputWidths), n.wellFormed = true →
    ∃ outs, n.eval ports = some outs ∧ outs.map List.length = n.outputs.map fun o => o.drivers.length

/-- The machine, one instance a step, reaches that value: after as many steps as instances nothing is pending and the
output ports read what the netlist's meaning gives. -/
def Obligations.TheMachineComputesTheNetlist : Prop :=
  ∀ (n : Netlist) (ports : Ports Bit n.inputWidths), n.wellFormed = true →
    ∃ t, steps n.insts.length (State.load n ports) = .next t ∧ t.pending = [] ∧ t.readOutputs = n.eval ports

/-- No history: whatever was evaluated before, for whatever inputs, after the host drives new levels the output ports
come to read the netlist's value for those. -/
def Obligations.OutputsForgetEarlierInputs : Prop :=
  ∀ (n : Netlist) (s : State) (new : Ports Bit s.inputWidths) (ports : Ports Bit n.inputWidths), n.wellFormed = true →
    s.ports = n.inputs → s.wiring = n.insts.map encode → s.outputs = n.outputs → new.lists = ports.lists →
    ∃ t, steps n.insts.length (s.drive new) = .next t ∧ t.readOutputs = n.eval ports

/-- No order of evaluation gives another value: whatever instances are evaluated whenever, what has settled is what
evaluation in the listed order gives. -/
def Obligations.NoScheduleGivesAnotherValue : Prop :=
  ∀ (n : Netlist) (ports : Ports Bit n.inputWidths) (cells : List (List Bit)) (schedule : List Nat) (k : Nat)
    (v : List Bit), evalCells id Op.bits ports.lists n.insts [] = some cells →
    (evalSchedule n.insts ports.lists schedule)[k]? = some (some v) → cells[k]? = some v

/-- Every order that respects the wires settles everything. -/
def Obligations.EveryOrderThatRespectsTheWiresSettles : Prop :=
  ∀ (n : Netlist) (ports : Ports Bit n.inputWidths) (order : List Nat), n.wellFormed = true →
    order.Perm (List.range n.insts.length) → RespectsWires n.insts order →
    ∃ cells, evalCells id Op.bits ports.lists n.insts [] = some cells ∧
      evalSchedule n.insts ports.lists order = cells.map some

/-! Structure -/

/-- Each recipe, as a netlist, computes its operation. -/
def Obligations.RecipesComputeTheirOperations : Prop :=
  ∀ (op : Op) (n : Netlist) (v : Ports Bit op.inputWidths), recipe op = some n →
    n.inputs = op.inputs ∧ n.wellFormed = true ∧ n.evalWith id Op.bits v.lists = some [(op.fn v).bits]

/-- The derivation chain followed all the way down to `nand` computes every operation. -/
def Obligations.TheDerivationChainComputesEveryOperation : Prop :=
  ∀ (op : Op) (v : Ports Bit op.inputWidths), derive id Gate.nand recipeDepth op v = some (op.fn v).bits

/-- Every operation has a full expansion (under the spec's decisions D7 and D13): `nand` instances only, as many as its NAND
count, and well formed. -/
def Obligations.ExpansionsAreNandOnly : Prop :=
  ∀ op : Op, ∃ n, expansion op = some n ∧ n.inputs = op.inputs ∧ (∀ i ∈ n.insts, i.op = .nand) ∧
    n.insts.length = nandCount op ∧ n.wellFormed = true

/-- On an expansion, whatever wires carry, the NAND cells give what the derivation chain gives: values and path lengths
alike. -/
def Obligations.ExpansionsFollowTheDerivationChain : Prop :=
  ∀ (op : Op) (n : Netlist), expansion op = some n →
    ∀ (α : Type) (const : Bit → α) (nandOn : α → α → α) (v : Ports α op.inputWidths),
      n.evalWith const (nandOnly nandOn) v.lists = (derive const nandOn recipeDepth op v).map fun out => [out]

/-- The direct instances of the recipes (two rows rest on the spec's decision D7): the table, with `0` for every pair not in
it. -/
def Obligations.DirectInstanceTable : Prop :=
  ∀ op sub : Op, directInstances op sub =
    match op, sub with
    | .not, .nand => 1
    | .and, .nand | .and, .not => 1
    | .or, .not => 2
    | .or, .nand => 1
    | .nor, .or | .nor, .not => 1
    | .xor, .nand | .xor, .or | .xor, .and => 1
    | .mux, .not | .mux, .or => 1
    | .mux, .and => 2
    | .dmux, .not => 1
    | .dmux, .and => 2
    | .not16, .not | .and16, .and | .or16, .or | .mux16, .mux | .add16, .fullAdder => 16
    | .or8way, .or => 7
    | .mux4way16, .mux16 => 3
    | .mux8way16, .mux4way16 => 2
    | .mux8way16, .mux16 => 1
    | .dmux4way, .dmux => 3
    | .dmux8way, .dmux => 1
    | .dmux8way, .dmux4way => 2
    | .halfAdder, .xor | .halfAdder, .and => 1
    | .fullAdder, .xor | .fullAdder, .or => 2
    | .fullAdder, .and => 3
    | .inc16, .add16 => 1
    | _, _ => 0

/-- The NAND counts (figures the spec derives; two rest on its decision D7). -/
def Obligations.NandCountTable : Prop :=
  Op.all.map nandCount =
    [1, 1, 2, 3, 4, 6, 8, 5, 16, 32, 48, 128, 21, 384, 896, 15, 35, 8, 24, 384, 384]

/-- The depths (figures the spec derives; `dmux4way` and `dmux8way` rest on its decision D7), per output pin and, where the spec
gives them, from one input alone. -/
def Obligations.DepthTable : Prop :=
  Op.all.map depth = [1, 1, 2, 2, 3, 4, 5, 3, 1, 2, 2, 5, 6, 9, 13, 5, 7, 4, 8, 94, 94].map some ∧
  (depthsFrom .mux 2 = some [some 5] ∧ depthsFrom .mux 0 = some [some 4] ∧ depthsFrom .mux 1 = some [some 4]) ∧
  (depths .dmux = some [some 3, some 2] ∧ depthsFrom .dmux 1 = some [some 3, some 2] ∧
    depthsFrom .dmux 0 = some [some 2, some 2]) ∧
  depths .dmux4way = some [some 5, some 5, some 4, some 4] ∧
  depths .dmux8way = some [some 7, some 7, some 7, some 7, some 6, some 6, some 6, some 6] ∧
  depths .halfAdder = some [some 4, some 2] ∧ depths .fullAdder = some [some 8, some 6] ∧
  depthsFrom .fullAdder 2 = some [some 4, some 6] ∧
  depths .add16 = some (some 8 :: (List.range 15).map fun i => some (6 * (i + 1) + 4)) ∧
  depths .inc16 = depths .add16

/-- The carry chain of `add16` (figures the spec derives): `c_(i+1)` has depth `6(i+1)`, sixteen stages, the last 96. -/
def Obligations.CarryChainGrowsBySixCellsAStage : Prop :=
  ∃ stages, add16Stages = some stages ∧ stages.length = 16 ∧
    ∀ i, i < 16 → ∃ sum, stages[i]? = some [sum, some (6 * (i + 1))]

/-- R110 and its reason: the linear chain computes what `or8way` does with as many `or`, and is another structure, deeper by
eight cells. -/
def Obligations.TheLinearChainIsNotOr8way : Prop :=
  recipe .or8way ≠ some linearOr8 ∧
  (∀ v : Bits8, linearOr8.evalWith id Op.bits [v.bits] = some [[Gate.or8way v]]) ∧
  linearOr8.insts.countP (fun i => i.op == .or) = directInstances .or8way .or ∧
  linearOr8.evalWith (fun _ => some 0) (derive (fun _ => some 0) pathNand recipeDepth) [List.replicate 8 (some 0)] =
    some [[some 14]] ∧ depth .or8way = some 6

/-- The settling-time bounds, for any delay of a cell (the spec's decision D4 leaves `T_NAND` open; the model has no time, log
14): the bound of `add16` and `inc16` is 94 delays, and no operation's bound exceeds it. -/
def Obligations.NoSettlingBoundExceedsTheAdders : Prop :=
  settlingBound 94 = 94 * Config.tNand ∧ depth .add16 = some 94 ∧ depth .inc16 = some 94 ∧
  ∀ op d, depth op = some d → settlingBound d ≤ settlingBound 94

/-- The bound of a netlist (the spec derives it): the largest sum of the instances' depths along any path of instances,
whether or not it leads to an output port; no path's sum exceeds it, and some path's is equal to it. -/
def Obligations.NetlistBoundsCountEveryPath : Prop :=
  ∀ (n : Netlist) (bound : Nat), n.settlingDepth = some bound →
    (∀ path : List Nat, PathOfInstances n.insts path →
      ∃ depths : List Nat,
        (path.map fun k => (n.insts[k]?).bind fun i => depth i.op) = depths.map some ∧ depths.sum ≤ bound) ∧
    (∃ path depths : List Nat, PathOfInstances n.insts path ∧
      (path.map fun k => (n.insts[k]?).bind fun i => depth i.op) = depths.map some ∧ depths.sum = bound)

/-! Netlist texts -/

/-- A connection of a wrong number or width of arguments is refused where a netlist is built, under the name of its check,
and anything else becomes an instance with those arguments (the spec's own choice of checks, decision D9). -/
def Obligations.WrongShapesAreRefusedAtConstruction : Prop :=
  ∀ (op : Op) (made : List Instr) (args : List (List Driver)),
    (args.length ≠ op.inputWidths.length → placeInst op made args = .error .arity) ∧
    (args.length = op.inputWidths.length → args.map List.length ≠ op.inputWidths →
      placeInst op made args = .error .width) ∧
    (args.map List.length = op.inputWidths →
      ∃ i, i.op = op ∧ i.args = args ∧
        placeInst op made args = .ok (made ++ [i], (List.range op.output.width).map (.cell made.length)))

/-- A text that passes the seven checks denotes a netlist of the block. -/
def Obligations.CheckedTextsDenoteNetlists : Prop :=
  ∀ (t : TextNetlist) (n : Netlist), elaborate t = .ok n →
    n.wellFormed = true ∧ n.inputs = t.inputs.map TextPort.toPort ∧
    (n.outputs.map fun o => (o.name, o.drivers.length)) = t.outputs.map fun p => (p.name, p.width.toNat)

/-- The meaning of a checked text, read off its lines, is the value of the netlist it denotes; a text that fails a check has
none (log 21). -/
def Obligations.TextMeaningIsNetlistValue : Prop :=
  (∀ (t : TextNetlist) (n : Netlist) (ports : Ports Bit t.inputWidths) (same : Ports Bit n.inputWidths),
    elaborate t = .ok n → ports.lists = same.lists →
    ∃ outs, evalText t ports = some outs ∧ n.eval same = some outs) ∧
  (∀ (t : TextNetlist) (ports : Ports Bit t.inputWidths) (c : TextCheck), elaborate t = .error c →
    evalText t ports = none)
end

