-- ==== Sys2Proof/Laws/Bus.lean ====
section
/-! SUPPORT. Lemmas about buses: indexing what was built, Bits and back, and the conversions as core's own. -/

namespace Sys2Proof

theorem at_eq_false_of_ge {n i : Nat} (v : Bus n) (h : n ≤ i) : Bus.at v i = false := BitVec.getLsbD_of_ge v i h

@[simp] theorem at_build (n : Nat) (f : Nat → Bit) (i : Nat) : Bus.at (Bus.build n f) i = (decide (i < n) && f i) := by
  induction n with
  | zero => simp [Bus.build, Bus.at]
  | succ n ih =>
    simp only [Bus.at] at ih
    simp only [Bus.build, Bus.at, BitVec.getLsbD_cons, ih]
    by_cases h : i = n
    · simp [h]
    · simp [h, Nat.le_iff_lt_or_eq]

theorem bus_ext {n : Nat} {v w : Bus n} (h : ∀ i, i < n → Bus.at v i = Bus.at w i) : v = w :=
  BitVec.eq_of_getLsbD_eq h

@[simp] theorem at_lit (l : List Bit) (i : Nat) : Bus.at (Bus.lit l) i = (l[i]?).getD false := by
  simp only [Bus.at, Bus.lit, BitVec.getLsbD_ofBoolListLE]
  cases h : l[i]? <;> simp_all [List.getD]

@[simp] theorem at_cons {n : Nat} (b : Bit) (v : Bus n) (i : Nat) :
    Bus.at (BitVec.cons b v) i = if i = n then b else Bus.at v i := by
  simp only [Bus.at, BitVec.getLsbD_cons]

@[simp] theorem bits_length {n : Nat} (v : Bus n) : (Bus.bits v).length = n := by simp [Bus.bits]

@[simp] theorem bits_getElem? {n : Nat} (v : Bus n) (i : Nat) :
    (Bus.bits v)[i]? = if i < n then some (Bus.at v i) else none := by
  simp only [Bus.bits, List.getElem?_map]
  split <;> simp_all

@[simp] theorem bits_lit (l : List Bit) : Bus.bits (Bus.lit l) = l :=
  List.ext_getElem? fun i => by
    rw [bits_getElem?, at_lit]
    by_cases hi : i < l.length <;> simp [hi]

@[simp] theorem bits_one (b : Bit) : Bus.bits (Bus.one b) = [b] := bits_lit [b]

theorem bits_inj {n : Nat} {v w : Bus n} (h : Bus.bits v = Bus.bits w) : v = w :=
  bus_ext fun i hi => by
    have := congrArg (·[i]?) h
    simp only [bits_getElem?, hi, ↓reduceIte, Option.some.injEq] at this
    exact this

@[simp] theorem bits_ofBits {n : Nat} (l : List Bit) (h : l.length = n) : Bus.bits (Bus.ofBits l h) = l := by
  subst h; exact bits_lit l

@[simp] theorem ofBits_bits {n : Nat} (v : Bus n) (h : v.bits.length = n) : Bus.ofBits v.bits h = v :=
  bits_inj (bits_ofBits v.bits h)

theorem decodeBelow_eq {n : Nat} (v : Bus n) (k : Nat) : decodeBelow v k = v.toNat % 2 ^ k := by
  induction k with
  | zero => simp [decodeBelow, Nat.mod_one]
  | succ k ih =>
    rw [decodeBelow, ih, Bus.at, BitVec.getLsbD, Nat.toNat_testBit, pow_succ, Nat.mod_mul]
    ring

theorem decodeNat_eq_toNat {n : Nat} (v : Bus n) : decodeNat v = v.toNat := by
  rw [decodeNat, decodeBelow_eq, Nat.mod_eq_of_lt v.isLt]

theorem encodeNat_eq_ofNat (n u : Nat) : encodeNat n u = BitVec.ofNat n u := by
  refine bus_ext fun i hi => ?_
  rw [encodeNat, at_build]
  rw [Bus.at, BitVec.getLsbD_ofNat, Nat.testBit_eq_decide_div_mod_eq]

theorem zero16_eq : zero16 = 0#16 := by decide

theorem one16_eq : one16 = 1#16 := by decide

end Sys2Proof
end

