-- ==== Sys2Proof/Laws/PerInstr.lean ====
section
/-! SUPPORT. Statements about every instance as data, one lemma per operation. -/

namespace Sys2Proof.Laws.PortShape

/-- The arguments of an instance have the number and the widths of its operation's input ports (10_state.md R28), and both
tables of widths agree (30_encoding.md R56). -/
def Statement (i : Instr) : Prop :=
  i.args.map List.length = i.op.inputWidths ∧ i.op.format.inputWidths = i.op.inputWidths ∧
    i.op.format.outputWidth = i.op.output.width

theorem nand (a b : Driver) : Statement (.nand a b) := ⟨rfl, rfl, rfl⟩
theorem not (a : Driver) : Statement (.not a) := ⟨rfl, rfl, rfl⟩
theorem and (a b : Driver) : Statement (.and a b) := ⟨rfl, rfl, rfl⟩
theorem or (a b : Driver) : Statement (.or a b) := ⟨rfl, rfl, rfl⟩
theorem nor (a b : Driver) : Statement (.nor a b) := ⟨rfl, rfl, rfl⟩
theorem xor (a b : Driver) : Statement (.xor a b) := ⟨rfl, rfl, rfl⟩
theorem mux (a b sel : Driver) : Statement (.mux a b sel) := ⟨rfl, rfl, rfl⟩
theorem dmux (x sel : Driver) : Statement (.dmux x sel) := ⟨rfl, rfl, rfl⟩
theorem not16 (x : Pins 16) : Statement (.not16 x) :=
  ⟨by simp [Instr.args, Instr.op, Op.inputWidths, Op.inputs, x.width], rfl, rfl⟩
theorem and16 (a b : Pins 16) : Statement (.and16 a b) :=
  ⟨by simp [Instr.args, Instr.op, Op.inputWidths, Op.inputs, a.width, b.width], rfl, rfl⟩
theorem or16 (a b : Pins 16) : Statement (.or16 a b) :=
  ⟨by simp [Instr.args, Instr.op, Op.inputWidths, Op.inputs, a.width, b.width], rfl, rfl⟩
theorem mux16 (a b : Pins 16) (sel : Driver) : Statement (.mux16 a b sel) :=
  ⟨by simp [Instr.args, Instr.op, Op.inputWidths, Op.inputs, a.width, b.width], rfl, rfl⟩
theorem or8way (x : Pins 8) : Statement (.or8way x) :=
  ⟨by simp [Instr.args, Instr.op, Op.inputWidths, Op.inputs, x.width], rfl, rfl⟩
theorem mux4way16 (a b c d : Pins 16) (sel : Pins 2) : Statement (.mux4way16 a b c d sel) :=
  ⟨by simp [Instr.args, Instr.op, Op.inputWidths, Op.inputs, Pins.width], rfl, rfl⟩
theorem mux8way16 (a b c d e f g h : Pins 16) (sel : Pins 3) : Statement (.mux8way16 a b c d e f g h sel) :=
  ⟨by simp [Instr.args, Instr.op, Op.inputWidths, Op.inputs, Pins.width], rfl, rfl⟩
theorem dmux4way (x : Driver) (sel : Pins 2) : Statement (.dmux4way x sel) :=
  ⟨by simp [Instr.args, Instr.op, Op.inputWidths, Op.inputs, Pins.width], rfl, rfl⟩
theorem dmux8way (x : Driver) (sel : Pins 3) : Statement (.dmux8way x sel) :=
  ⟨by simp [Instr.args, Instr.op, Op.inputWidths, Op.inputs, Pins.width], rfl, rfl⟩
theorem halfAdder (a b : Driver) : Statement (.halfAdder a b) := ⟨rfl, rfl, rfl⟩
theorem fullAdder (a b c : Driver) : Statement (.fullAdder a b c) := ⟨rfl, rfl, rfl⟩
theorem add16 (a b : Pins 16) : Statement (.add16 a b) :=
  ⟨by simp [Instr.args, Instr.op, Op.inputWidths, Op.inputs, Pins.width], rfl, rfl⟩
theorem inc16 (a : Pins 16) : Statement (.inc16 a) :=
  ⟨by simp [Instr.args, Instr.op, Op.inputWidths, Op.inputs, Pins.width], rfl, rfl⟩

/-- Every instance has the port shape of its operation. -/
theorem all : (i : Instr) → Statement i
  | .nand a b => nand a b
  | .not a => not a
  | .and a b => and a b
  | .or a b => or a b
  | .nor a b => nor a b
  | .xor a b => xor a b
  | .mux a b sel => mux a b sel
  | .dmux x sel => dmux x sel
  | .not16 x => not16 x
  | .and16 a b => and16 a b
  | .or16 a b => or16 a b
  | .mux16 a b sel => mux16 a b sel
  | .or8way x => or8way x
  | .mux4way16 a b c d sel => mux4way16 a b c d sel
  | .mux8way16 a b c d e f g h sel => mux8way16 a b c d e f g h sel
  | .dmux4way x sel => dmux4way x sel
  | .dmux8way x sel => dmux8way x sel
  | .halfAdder a b => halfAdder a b
  | .fullAdder a b c => fullAdder a b c
  | .add16 a b => add16 a b
  | .inc16 a => inc16 a

end Sys2Proof.Laws.PortShape
end

