-- ==== Sys2Proof/Laws/Decode.lean ====
section
/-! SUPPORT. The decoder's parts: a listing word and back, the arguments of an operation and back. -/

namespace Sys2Proof

theorem encodeWord_of_decodeWord {w : BitVec 8} {op : Op} (h : decodeWord w = .ok op) : encodeWord op = w := by
  have all : ∀ (w : BitVec 8) (op : Op), (decodeWord w).toOption = some op → encodeWord op = w := by decide +kernel
  exact all w op (by rw [h]; rfl)

theorem ports_ext {α : Type} {ws : List Nat} {p q : Ports α ws} (h : p.lists = q.lists) : p = q := by
  cases p; cases q; cases h; rfl

/-- An operation's arguments make an instance of it with those arguments. -/
theorem op_args_of_ofPorts (op : Op) (p : Ports Driver op.inputWidths) :
    (Instr.ofPorts op p).op = op ∧ (Instr.ofPorts op p).args = p.lists := by
  obtain ⟨args, h⟩ := p
  have h' := h
  cases op <;>
    simp only [Op.inputWidths, Op.inputs, List.map_cons, List.map_nil, List.map_eq_cons_iff, List.map_eq_nil_iff,
      List.length_eq_one_iff] at h'
  case not => obtain ⟨_, _, rfl, ⟨a, rfl⟩, rfl⟩ := h'; exact ⟨rfl, rfl⟩
  case nand | and | or | nor | xor | dmux | halfAdder =>
    all_goals obtain ⟨_, _, rfl, ⟨a, rfl⟩, _, _, rfl, ⟨b, rfl⟩, rfl⟩ := h'; exact ⟨rfl, rfl⟩
  case mux | fullAdder =>
    all_goals
      obtain ⟨_, _, rfl, ⟨a, rfl⟩, _, _, rfl, ⟨b, rfl⟩, _, _, rfl, ⟨c, rfl⟩, rfl⟩ := h'
      exact ⟨rfl, rfl⟩
  case not16 | or8way | inc16 => all_goals obtain ⟨_, _, rfl, -, rfl⟩ := h'; exact ⟨rfl, rfl⟩
  case and16 | or16 | add16 => all_goals obtain ⟨_, _, rfl, -, _, _, rfl, -, rfl⟩ := h'; exact ⟨rfl, rfl⟩
  case mux16 => obtain ⟨_, _, rfl, -, _, _, rfl, -, _, _, rfl, ⟨c, rfl⟩, rfl⟩ := h'; exact ⟨rfl, rfl⟩
  case dmux4way | dmux8way =>
    all_goals obtain ⟨_, _, rfl, ⟨a, rfl⟩, _, _, rfl, -, rfl⟩ := h'; exact ⟨rfl, rfl⟩
  case mux4way16 =>
    obtain ⟨_, _, rfl, -, _, _, rfl, -, _, _, rfl, -, _, _, rfl, -, _, _, rfl, -, rfl⟩ := h'
    exact ⟨rfl, rfl⟩
  case mux8way16 =>
    obtain ⟨_, _, rfl, -, _, _, rfl, -, _, _, rfl, -, _, _, rfl, -, _, _, rfl, -, _, _, rfl, -, _, _, rfl, -,
      _, _, rfl, -, _, _, rfl, -, rfl⟩ := h'
    exact ⟨rfl, rfl⟩

/-- `decode` answers exactly where the word names an operation, with the instance its arguments make. -/
theorem decode_eq_ok {r : RawInst} {i : Instr} :
    decode r = .ok i ↔ ∃ (op : Op) (h : decodeWord r.word = .ok op),
      i = Instr.ofPorts op ⟨r.args.lists, by rw [r.args.widths, wordWidths, h]⟩ := by
  unfold decode
  split
  · rename_i op h
    simp only [Except.ok.injEq]
    constructor
    · rintro rfl; exact ⟨op, h, rfl⟩
    · rintro ⟨op', h', rfl⟩
      rw [h] at h'
      cases h'
      rfl
  · rename_i e h
    simp only [reduceCtorEq, false_iff]
    rintro ⟨op, h', -⟩
    rw [h] at h'
    cases h'

end Sys2Proof
end

