-- ==== Sys2Proof/Laws/State.lean ====
section
/-! SUPPORT. The fields of the state after each update, and what the named operations over the evaluation do. -/

namespace Sys2Proof.Machine

@[simp] theorem settle_inputs (s : State) (i : Instr) (out : Bus i.op.output.width) : (s.settle i out).inputs = s.inputs := rfl
@[simp] theorem settle_ports (s : State) (i : Instr) (out : Bus i.op.output.width) : (s.settle i out).ports = s.ports :=
  rfl
@[simp] theorem settle_settled (s : State) (i : Instr) (out : Bus i.op.output.width) :
    (s.settle i out).settled = s.settled ++ [⟨i, out⟩] := rfl
@[simp] theorem settle_pending (s : State) (i : Instr) (out : Bus i.op.output.width) : (s.settle i out).pending = s.pending := rfl
@[simp] theorem settle_outputs (s : State) (i : Instr) (out : Bus i.op.output.width) : (s.settle i out).outputs = s.outputs := rfl
@[simp] theorem settle_outs (s : State) (i : Instr) (out : Bus i.op.output.width) : (s.settle i out).outs = s.outs ++ [out.bits] := by
  simp [State.outs]

@[simp] theorem settle_block (s : State) (i : Instr) (out : Bus i.op.output.width) : (s.settle i out).block = s.block := rfl
@[simp] theorem drive_block (s : State) (ins : Ports Bit s.inputWidths) : (s.drive ins).block = s.block := rfl
@[simp] theorem load_block (n : Netlist) (ins : Ports Bit n.inputWidths) : (State.load n ins).block = () := rfl

@[simp] theorem drive_inputs (s : State) (ins : Ports Bit s.inputWidths) : (s.drive ins).inputs = ins := rfl
@[simp] theorem drive_ports (s : State) (ins : Ports Bit s.inputWidths) : (s.drive ins).ports = s.ports := rfl
@[simp] theorem drive_settled (s : State) (ins : Ports Bit s.inputWidths) : (s.drive ins).settled = [] := rfl
@[simp] theorem drive_pending (s : State) (ins : Ports Bit s.inputWidths) : (s.drive ins).pending = s.wiring := rfl
@[simp] theorem drive_outputs (s : State) (ins : Ports Bit s.inputWidths) : (s.drive ins).outputs = s.outputs := rfl

@[simp] theorem load_inputs (n : Netlist) (ins : Ports Bit n.inputWidths) : (State.load n ins).inputs = ins := rfl
@[simp] theorem load_ports (n : Netlist) (ins : Ports Bit n.inputWidths) : (State.load n ins).ports = n.inputs := rfl
@[simp] theorem load_settled (n : Netlist) (ins : Ports Bit n.inputWidths) : (State.load n ins).settled = [] := rfl
@[simp] theorem load_pending (n : Netlist) (ins : Ports Bit n.inputWidths) :
    (State.load n ins).pending = n.insts.map encode := rfl
@[simp] theorem load_outputs (n : Netlist) (ins : Ports Bit n.inputWidths) : (State.load n ins).outputs = n.outputs := rfl

/-- A level does not depend on what is still to be evaluated, nor on the output ports. -/
theorem level_congr {s t : State} (hi : s.inputs.lists = t.inputs.lists) (ho : s.settled = t.settled) (d : Driver) :
    s.level d = t.level d := by
  simp only [State.level, State.outs, hi, ho]

/-- `conclude` answers a next state exactly where there is an output, and then it has settled. -/
theorem conclude_eq_next {s t : State} {i : Instr} {o : Option (Bus i.op.output.width)} :
    s.conclude i o = .next t ↔ ∃ out, o = some out ∧ t = s.settle i out := by
  cases o <;> simp [State.conclude, eq_comm]

/-- `conclude` refuses exactly where there is no output. -/
theorem conclude_eq_refused {s : State} {i : Instr} {o : Option (Bus i.op.output.width)} {r : Refusal} :
    s.conclude i o = .refused r ↔ o = none ∧ r = .undrivenPin := by
  cases o <;> simp [State.conclude, eq_comm]

/-- Everything a step can do: nothing where nothing is pending, else run or refuse the next instance. -/
theorem step_cases (s : State) :
    (s.pending = [] ∧ step s = .next s) ∨
    (∃ r rest i, s.pending = r :: rest ∧ decode r = .ok i ∧ step s = exec i { s with pending := rest }) ∨
    (∃ r rest e, s.pending = r :: rest ∧ decode r = .error e ∧ step s = .refused (Refusal.ofReject e)) := by
  cases hp : s.pending with
  | nil => exact .inl ⟨rfl, by simp [step, hp]⟩
  | cons r rest =>
    cases hd : decode r with
    | ok i => exact .inr (.inl ⟨r, rest, i, rfl, hd, by simp [step, hp, hd]⟩)
    | error e => exact .inr (.inr ⟨r, rest, e, rfl, hd, by simp [step, hp, hd]⟩)

end Sys2Proof.Machine
end

