-- ==== Sys2Proof/Laws/Wiring.lean ====
section
/-! SUPPORT. Reading drivers and evaluating instances in order: what exists is read, and nothing added later changes it. -/

namespace Sys2Proof

/-- `readAll` answers exactly the list of the answers. -/
theorem readAll_eq_some {δ α : Type} {f : δ → Option α} {l : List δ} {as : List α} :
    readAll f l = some as ↔ l.map f = as.map some := by
  induction l generalizing as with
  | nil => cases as <;> simp [readAll]
  | cons d rest ih =>
    cases hd : f d with
    | none => cases as <;> simp [readAll, hd]
    | some a =>
      cases hr : readAll f rest with
      | none =>
        have : ∀ bs : List α, rest.map f ≠ bs.map some := fun bs h => by simpa [hr] using (ih (as := bs)).2 h
        cases as <;> simp [readAll, hd, hr, this]
      | some bs =>
        have := ih (as := bs)
        cases as with
        | nil => simp [readAll, hd, hr]
        | cons b bs' =>
          simp only [readAll, hd, hr, List.map_cons, List.cons.injEq, Option.some.injEq]
          constructor
          · rintro ⟨rfl, rfl⟩; exact ⟨rfl, this.1 hr⟩
          · rintro ⟨rfl, h⟩
            refine ⟨rfl, ?_⟩
            have h2 := (ih (as := bs')).2 h
            rw [hr] at h2
            exact Option.some.inj h2

/-- `readAll` one entry at a time. -/
theorem readAll_cons {δ α : Type} (f : δ → Option α) (d : δ) (rest : List δ) :
    readAll f (d :: rest) = (f d).bind fun a => (readAll f rest).map (a :: ·) := by
  cases hd : f d <;> cases hr : readAll f rest <;> simp [readAll, hd, hr]

/-- `readAll` answers where every entry does. -/
theorem readAll_isSome {δ α : Type} {f : δ → Option α} {l : List δ} :
    (readAll f l).isSome ↔ ∀ d ∈ l, (f d).isSome := by
  induction l with
  | nil => simp [readAll]
  | cons d rest ih =>
    cases hd : f d with
    | none => simp [readAll, hd]
    | some a => cases hr : readAll f rest <;> simp [readAll, hd, hr] at ih ⊢ <;> simpa using ih

theorem readAll_eq_none {δ α : Type} {f : δ → Option α} {l : List δ} : readAll f l = none ↔ ∃ d ∈ l, f d = none := by
  have := readAll_isSome (f := f) (l := l)
  cases h : readAll f l with
  | none => simpa [h] using this
  | some as => simpa [h, Option.isSome_iff_ne_none] using this

theorem readAll_congr {δ α : Type} {f g : δ → Option α} {l : List δ} (h : ∀ d ∈ l, f d = g d) :
    readAll f l = readAll g l := by
  induction l with
  | nil => rfl
  | cons d rest ih =>
    simp only [readAll, h d (by simp), ih fun e he => h e (by simp [he])]

/-- What one reading answers, a reading that answers at least as much answers too. -/
theorem readAll_mono {δ α : Type} {f g : δ → Option α} {l : List δ} {as : List α} (h : ∀ d a, f d = some a → g d = some a)
    (hl : readAll f l = some as) : readAll g l = some as := by
  rw [readAll_eq_some] at hl ⊢
  rw [← hl]
  refine List.map_congr_left fun d hd => ?_
  have hs : (f d).isSome := readAll_isSome.1 (by rw [readAll_eq_some.2 hl]; rfl) d hd
  obtain ⟨a, ha⟩ := Option.isSome_iff_exists.1 hs
  rw [ha, h d a ha]

/-- A row of ports reads as `q` exactly where its lists of wires read as the lists of `q`. -/
theorem readPorts_eq_some {δ α : Type} {ws : List Nat} {f : δ → Option α} {p : Ports δ ws} {q : Ports α ws} :
    readPorts f p = some q ↔ readAll (readAll f) p.lists = some q.lists := by
  unfold readPorts
  split
  · rename_i ls h
    cases q
    simp [h]
  · rename_i h
    simp [h]

theorem readPorts_eq_none {δ α : Type} {ws : List Nat} {f : δ → Option α} {p : Ports δ ws} :
    readPorts f p = none ↔ ∃ port ∈ p.lists, ∃ d ∈ port, f d = none := by
  simp only [← readAll_eq_none]
  unfold readPorts
  split <;> rename_i h <;> simp [h]

theorem readPorts_congr {δ α : Type} {ws : List Nat} {f g : δ → Option α} {p : Ports δ ws}
    (h : ∀ port ∈ p.lists, ∀ d ∈ port, f d = g d) : readPorts f p = readPorts g p :=
  Option.ext fun q => by
    rw [readPorts_eq_some, readPorts_eq_some, readAll_congr fun port hp => readAll_congr (h port hp)]

/-- What one reading answers, a reading that answers at least as much answers too. -/
theorem readPorts_mono {δ α : Type} {ws : List Nat} {f g : δ → Option α} {p : Ports δ ws} {q : Ports α ws}
    (h : ∀ d a, f d = some a → g d = some a) (hp : readPorts f p = some q) : readPorts g p = some q := by
  rw [readPorts_eq_some] at hp ⊢
  exact readAll_mono (fun _ _ => readAll_mono h) hp

theorem bitAt_eq_some {α : Type} {l : List (List α)} {k j : Nat} {a : α} :
    bitAt l k j = some a ↔ ∃ v, l[k]? = some v ∧ v[j]? = some a := by
  unfold bitAt
  cases l[k]? <;> simp

theorem bitAt_isSome {α : Type} {l : List (List α)} {k j : Nat} :
    (bitAt l k j).isSome = bitExists (l.map List.length) k j := by
  unfold bitAt bitExists
  cases h : l[k]? with
  | none => simp [h]
  | some v => by_cases hj : j < v.length <;> simp [h, hj]

theorem bitAt_append {α : Type} {l m : List (List α)} {k j : Nat} {a : α} (h : bitAt l k j = some a) :
    bitAt (l ++ m) k j = some a := by
  obtain ⟨v, hv, hj⟩ := bitAt_eq_some.1 h
  refine bitAt_eq_some.2 ⟨v, ?_, hj⟩
  rw [List.getElem?_append_left (List.getElem?_eq_some_iff.1 hv).1, hv]

/-- A driver is well formed exactly where it carries something. -/
theorem read_isSome {α : Type} (const : Bit → α) (ports cells : List (List α)) (d : Driver) :
    (d.read const ports cells).isSome = d.wellFormed (ports.map List.length) (cells.map List.length) := by
  cases d <;> simp [Driver.read, Driver.wellFormed, bitAt_isSome]

/-- What a driver carries stays when more instances settle. -/
theorem read_append {α : Type} {const : Bit → α} {ports cells more : List (List α)} {d : Driver} {a : α}
    (h : d.read const ports cells = some a) : d.read const ports (cells ++ more) = some a := by
  cases d with
  | const b => exact h
  | port p j => exact h
  | cell k j => exact bitAt_append h

/-- The instances of a netlist only add cells behind the earlier ones. -/
theorem evalCells_extends {α : Type} {const : Bit → α} {apply : (op : Op) → Ports α op.inputWidths → Option (List α)}
    {ports : List (List α)} {insts : List Instr} {cells final : List (List α)}
    (h : evalCells const apply ports insts cells = some final) :
    ∃ more, final = cells ++ more ∧ more.length = insts.length := by
  induction insts generalizing cells with
  | nil => exact ⟨[], by simpa [evalCells] using h.symm, rfl⟩
  | cons i rest ih =>
    simp only [evalCells] at h
    split at h
    · split at h
      · obtain ⟨more, hm, hl⟩ := ih h
        exact ⟨_ :: more, by simpa using hm, by simp [hl]⟩
      · cases h
    · cases h

end Sys2Proof
end

