-- ==== Sys2Proof/Laws/Exec.lean ====
section
/-! SUPPORT. Reading operands, and an operation applied to the Bits of its ports. -/

namespace Sys2Proof

/-! An operation on the Bits of its inputs is its gate. -/

theorem fn_not (a : Bit) (h : [[a]].map List.length = Op.inputWidths .not) :
    Op.fn .not ⟨[[a]], h⟩ = Bus.one (Gate.not a) := rfl
theorem fn_nand (a b : Bit) (h : [[a], [b]].map List.length = Op.inputWidths .nand) :
    Op.fn .nand ⟨[[a], [b]], h⟩ = Bus.one (Gate.nand a b) := rfl
theorem fn_and (a b : Bit) (h : [[a], [b]].map List.length = Op.inputWidths .and) :
    Op.fn .and ⟨[[a], [b]], h⟩ = Bus.one (Gate.and a b) := rfl
theorem fn_or (a b : Bit) (h : [[a], [b]].map List.length = Op.inputWidths .or) :
    Op.fn .or ⟨[[a], [b]], h⟩ = Bus.one (Gate.or a b) := rfl
theorem fn_nor (a b : Bit) (h : [[a], [b]].map List.length = Op.inputWidths .nor) :
    Op.fn .nor ⟨[[a], [b]], h⟩ = Bus.one (Gate.nor a b) := rfl
theorem fn_xor (a b : Bit) (h : [[a], [b]].map List.length = Op.inputWidths .xor) :
    Op.fn .xor ⟨[[a], [b]], h⟩ = Bus.one (Gate.xor a b) := rfl
theorem fn_mux (a b sel : Bit) (h : [[a], [b], [sel]].map List.length = Op.inputWidths .mux) :
    Op.fn .mux ⟨[[a], [b], [sel]], h⟩ = Bus.one (Gate.mux a b sel) := rfl
theorem fn_dmux (x sel : Bit) (h : [[x], [sel]].map List.length = Op.inputWidths .dmux) :
    Op.fn .dmux ⟨[[x], [sel]], h⟩ = Gate.dmux x sel := rfl
theorem fn_not16 (x : Bits16) (h : [x.bits].map List.length = Op.inputWidths .not16) :
    Op.fn .not16 ⟨[x.bits], h⟩ = Gate.not16 x := by
  simp [Op.fn, Ports.bus, Ports.list]; rfl
theorem fn_and16 (a b : Bits16) (h : [a.bits, b.bits].map List.length = Op.inputWidths .and16) :
    Op.fn .and16 ⟨[a.bits, b.bits], h⟩ = Gate.and16 a b := by
  simp [Op.fn, Ports.bus, Ports.list]; rfl
theorem fn_or16 (a b : Bits16) (h : [a.bits, b.bits].map List.length = Op.inputWidths .or16) :
    Op.fn .or16 ⟨[a.bits, b.bits], h⟩ = Gate.or16 a b := by
  simp [Op.fn, Ports.bus, Ports.list]; rfl
theorem fn_add16 (a b : Bits16) (h : [a.bits, b.bits].map List.length = Op.inputWidths .add16) :
    Op.fn .add16 ⟨[a.bits, b.bits], h⟩ = Gate.add16 a b := by
  simp [Op.fn, Ports.bus, Ports.list]; rfl
theorem fn_mux16 (a b : Bits16) (sel : Bit) (h : [a.bits, b.bits, [sel]].map List.length = Op.inputWidths .mux16) :
    Op.fn .mux16 ⟨[a.bits, b.bits, [sel]], h⟩ = Gate.mux16 a b sel := by
  simp [Op.fn, Ports.bus, Ports.list, Ports.one]; rfl
theorem fn_or8way (x : Bits8) (h : [x.bits].map List.length = Op.inputWidths .or8way) :
    Op.fn .or8way ⟨[x.bits], h⟩ = Bus.one (Gate.or8way x) := by
  simp [Op.fn, Ports.bus, Ports.list]; rfl
theorem fn_mux4way16 (a b c d : Bits16) (sel : Bits2) (h : [a.bits, b.bits, c.bits, d.bits, sel.bits].map List.length = Op.inputWidths .mux4way16) :
    Op.fn .mux4way16 ⟨[a.bits, b.bits, c.bits, d.bits, sel.bits], h⟩ = Gate.mux4way16 a b c d sel := by
  simp [Op.fn, Ports.bus, Ports.list]; rfl
theorem fn_mux8way16 (a b c d e f g h : Bits16) (sel : Bits3)
    (hw : [a.bits, b.bits, c.bits, d.bits, e.bits, f.bits, g.bits, h.bits, sel.bits].map List.length =
      Op.inputWidths .mux8way16) :
    Op.fn .mux8way16 ⟨[a.bits, b.bits, c.bits, d.bits, e.bits, f.bits, g.bits, h.bits, sel.bits], hw⟩ =
      Gate.mux8way16 a b c d e f g h sel := by
  simp [Op.fn, Ports.bus, Ports.list]; rfl
theorem fn_dmux4way (x : Bit) (sel : Bits2) (h : [[x], sel.bits].map List.length = Op.inputWidths .dmux4way) :
    Op.fn .dmux4way ⟨[[x], sel.bits], h⟩ = Gate.dmux4way x sel := by
  simp [Op.fn, Ports.bus, Ports.list, Ports.one]; rfl
theorem fn_dmux8way (x : Bit) (sel : Bits3) (h : [[x], sel.bits].map List.length = Op.inputWidths .dmux8way) :
    Op.fn .dmux8way ⟨[[x], sel.bits], h⟩ = Gate.dmux8way x sel := by
  simp [Op.fn, Ports.bus, Ports.list, Ports.one]; rfl
theorem fn_halfAdder (a b : Bit) (h : [[a], [b]].map List.length = Op.inputWidths .halfAdder) :
    Op.fn .halfAdder ⟨[[a], [b]], h⟩ = Gate.halfAdder a b := rfl
theorem fn_fullAdder (a b c : Bit) (h : [[a], [b], [c]].map List.length = Op.inputWidths .fullAdder) :
    Op.fn .fullAdder ⟨[[a], [b], [c]], h⟩ = Gate.fullAdder a b c := rfl
theorem fn_inc16 (a : Bits16) (h : [a.bits].map List.length = Op.inputWidths .inc16) :
    Op.fn .inc16 ⟨[a.bits], h⟩ = Gate.inc16 a := by
  simp [Op.fn, Ports.bus, Ports.list]; rfl

end Sys2Proof

namespace Sys2Proof.Machine

/-- A bus operand reads as `v` exactly where its drivers' levels are the Bits of `v`. -/
theorem bus_eq_some {n : Nat} {s : State} {p : Pins n} {v : Bus n} :
    s.bus p = some v ↔ readAll s.level p.drivers = some v.bits := by
  unfold State.bus
  split
  · rename_i bits h
    simp only [h, Option.some.injEq]
    constructor
    · rintro rfl; simp
    · rintro rfl; simp
  · rename_i h
    simp [h]

/-- A bus operand reads wherever all its drivers carry a level. -/
theorem bus_isSome {n : Nat} {s : State} {p : Pins n} :
    (s.bus p).isSome ↔ ∀ d ∈ p.drivers, (s.level d).isSome := by
  rw [← readAll_isSome]
  unfold State.bus
  split <;> rename_i h <;> simp [h]

/-- A bus operand either reads as some value or not at all, and its drivers say which. -/
theorem bus_cases {n : Nat} (s : State) (p : Pins n) :
    (∃ v : Bus n, s.bus p = some v ∧ readAll s.level p.drivers = some v.bits) ∨
    (s.bus p = none ∧ readAll s.level p.drivers = none) := by
  rcases h : s.bus p with _ | v
  · have := bus_isSome (s := s) (p := p)
    rw [h, ← readAll_isSome] at this
    exact .inr ⟨rfl, by simpa using this⟩
  · exact .inl ⟨v, rfl, bus_eq_some.1 h⟩

end Sys2Proof.Machine
end

