-- ==== Sys2Proof/Laws/Gates.lean ====
section
/-! SUPPORT. What each gate computes, in the terms of core's Booleans, bit vectors and numbers: the lemmas that take a claim
about recipes to arithmetic. -/

namespace Sys2Proof

theorem gate_nand (a b : Bit) : Gate.nand a b = !(a && b) := rfl
theorem gate_not (a : Bit) : Gate.not a = !a := by cases a <;> rfl
theorem gate_and (a b : Bit) : Gate.and a b = (a && b) := by cases a <;> cases b <;> rfl
theorem gate_or (a b : Bit) : Gate.or a b = (a || b) := by cases a <;> cases b <;> rfl
theorem gate_nor (a b : Bit) : Gate.nor a b = !(a || b) := by cases a <;> cases b <;> rfl
theorem gate_xor (a b : Bit) : Gate.xor a b = (a != b) := by cases a <;> cases b <;> rfl
theorem gate_mux (a b sel : Bit) : Gate.mux a b sel = if sel = true then b else a := by
  cases a <;> cases b <;> cases sel <;> rfl

theorem gate_dmux_bits (x sel : Bit) : (Gate.dmux x sel).bits = [!sel && x, sel && x] := by
  cases x <;> cases sel <;> rfl
theorem gate_halfAdder_bits (a b : Bit) : (Gate.halfAdder a b).bits = [a != b, a && b] := by
  cases a <;> cases b <;> rfl
theorem gate_fullAdder_bits (a b c : Bit) :
    (Gate.fullAdder a b c).bits = [(a != b) != c, a && b || b && c || c && a] := by
  cases a <;> cases b <;> cases c <;> rfl

theorem gate_not16 (x : Bits16) : Gate.not16 x = ~~~x :=
  bus_ext fun i hi => by rw [Gate.not16, at_build]; simp [Bus.at, hi, gate_not]
theorem gate_and16 (a b : Bits16) : Gate.and16 a b = a &&& b :=
  bus_ext fun i hi => by rw [Gate.and16, at_build]; simp [Bus.at, hi, gate_and]
theorem gate_or16 (a b : Bits16) : Gate.or16 a b = a ||| b :=
  bus_ext fun i hi => by rw [Gate.or16, at_build]; simp [Bus.at, hi, gate_or]
theorem gate_mux16 (a b : Bits16) (sel : Bit) : Gate.mux16 a b sel = if sel = true then b else a :=
  bus_ext fun i hi => by rw [Gate.mux16, at_build]; cases sel <;> simp [hi, gate_mux]

/-- One stage of the ripple is one column of the addition: the sum bits and the carry of `Gate.ripple` after `n` stages are
those of the sum of the low `n` indices. -/
theorem ripple_sum (a b : Bits16) (n : Nat) :
    (Gate.ripple a b n).1.toNat + 2 ^ n * (Gate.ripple a b n).2.toNat = a.toNat % 2 ^ n + b.toNat % 2 ^ n := by
  induction n with
  | zero => simp [Gate.ripple, Bus.build, Nat.mod_one]
  | succ n ih =>
    have column : ∀ v : Bits16, v.toNat % 2 ^ (n + 1) = v.toNat % 2 ^ n + 2 ^ n * (Bus.at v n).toNat := fun v => by
      rw [pow_succ, Nat.mod_mul, Bus.at, BitVec.getLsbD, Nat.toNat_testBit]
    rw [column a, column b]
    simp only [Gate.ripple, BitVec.toNat_cons', Gate.fullAdder, at_lit, Nat.shiftLeft_eq, pow_succ]
    generalize (Gate.ripple a b n).1.toNat = s at ih ⊢
    generalize (Gate.ripple a b n).2 = c at ih ⊢
    generalize Bus.at a n = x
    generalize Bus.at b n = y
    cases x <;> cases y <;> cases c <;> simp [gate_xor, gate_and, gate_or] at ih ⊢ <;> omega

theorem gate_add16_toNat (a b : Bits16) : (Gate.add16 a b).toNat = (a.toNat + b.toNat) % 65536 := by
  have h := ripple_sum a b 16
  have ha : a.toNat % 2 ^ 16 = a.toNat := Nat.mod_eq_of_lt a.isLt
  have hb : b.toNat % 2 ^ 16 = b.toNat := Nat.mod_eq_of_lt b.isLt
  have hl : (Gate.ripple a b 16).1.toNat < 2 ^ 16 := (Gate.ripple a b 16).1.isLt
  rw [ha, hb] at h
  simp only [Gate.add16]
  omega

theorem gate_add16 (a b : Bits16) : Gate.add16 a b = a + b :=
  BitVec.eq_of_toNat_eq (by rw [gate_add16_toNat, BitVec.toNat_add])

theorem gate_inc16 (a : Bits16) : Gate.inc16 a = a + 1#16 := by rw [Gate.inc16, gate_add16, one16_eq]

end Sys2Proof
end

