-- ==== Sys2Proof/Laws/Meanings.lean ====
section
/-! SUPPORT. What each meaning does on driven operands: one lemma per operation, which the claims about `exec` cite. -/

namespace Sys2Proof.Machine

variable {s : State}

theorem exec_nand {a b : Driver} {va vb : Bit} (ha : s.bit a = some va) (hb : s.bit b = some vb) :
    exec (.nand a b) s = .next (s.settle (.nand a b) (Bus.one (Gate.nand va vb))) := by
  simp only [exec, execNand, ha, hb, Option.bind_eq_bind, Option.bind_some]; rfl

theorem exec_not {a : Driver} {va : Bit} (ha : s.bit a = some va) :
    exec (.not a) s = .next (s.settle (.not a) (Bus.one (Gate.not va))) := by
  simp only [exec, execNot, ha, Option.bind_eq_bind, Option.bind_some]; rfl

theorem exec_and {a b : Driver} {va vb : Bit} (ha : s.bit a = some va) (hb : s.bit b = some vb) :
    exec (.and a b) s = .next (s.settle (.and a b) (Bus.one (Gate.and va vb))) := by
  simp only [exec, execAnd, ha, hb, Option.bind_eq_bind, Option.bind_some]; rfl

theorem exec_or {a b : Driver} {va vb : Bit} (ha : s.bit a = some va) (hb : s.bit b = some vb) :
    exec (.or a b) s = .next (s.settle (.or a b) (Bus.one (Gate.or va vb))) := by
  simp only [exec, execOr, ha, hb, Option.bind_eq_bind, Option.bind_some]; rfl

theorem exec_nor {a b : Driver} {va vb : Bit} (ha : s.bit a = some va) (hb : s.bit b = some vb) :
    exec (.nor a b) s = .next (s.settle (.nor a b) (Bus.one (Gate.nor va vb))) := by
  simp only [exec, execNor, ha, hb, Option.bind_eq_bind, Option.bind_some]; rfl

theorem exec_xor {a b : Driver} {va vb : Bit} (ha : s.bit a = some va) (hb : s.bit b = some vb) :
    exec (.xor a b) s = .next (s.settle (.xor a b) (Bus.one (Gate.xor va vb))) := by
  simp only [exec, execXor, ha, hb, Option.bind_eq_bind, Option.bind_some]; rfl

theorem exec_mux {a b sel : Driver} {va vb vsel : Bit} (ha : s.bit a = some va) (hb : s.bit b = some vb)
    (hsel : s.bit sel = some vsel) :
    exec (.mux a b sel) s = .next (s.settle (.mux a b sel) (Bus.one (Gate.mux va vb vsel))) := by
  simp only [exec, execMux, ha, hb, hsel, Option.bind_eq_bind, Option.bind_some]; rfl

theorem exec_dmux {x sel : Driver} {vx vsel : Bit} (hx : s.bit x = some vx) (hsel : s.bit sel = some vsel) :
    exec (.dmux x sel) s = .next (s.settle (.dmux x sel) (Gate.dmux vx vsel)) := by
  simp only [exec, execDmux, hx, hsel, Option.bind_eq_bind, Option.bind_some]; rfl

theorem exec_not16 {x : Pins 16} {vx : Bits16} (hx : s.bus x = some vx) :
    exec (.not16 x) s = .next (s.settle (.not16 x) (Gate.not16 vx)) := by
  simp only [exec, execNot16, hx, Option.bind_eq_bind, Option.bind_some]; rfl

theorem exec_and16 {a b : Pins 16} {va vb : Bits16} (ha : s.bus a = some va) (hb : s.bus b = some vb) :
    exec (.and16 a b) s = .next (s.settle (.and16 a b) (Gate.and16 va vb)) := by
  simp only [exec, execAnd16, ha, hb, Option.bind_eq_bind, Option.bind_some]; rfl

theorem exec_or16 {a b : Pins 16} {va vb : Bits16} (ha : s.bus a = some va) (hb : s.bus b = some vb) :
    exec (.or16 a b) s = .next (s.settle (.or16 a b) (Gate.or16 va vb)) := by
  simp only [exec, execOr16, ha, hb, Option.bind_eq_bind, Option.bind_some]; rfl

theorem exec_mux16 {a b : Pins 16} {sel : Driver} {va vb : Bits16} {vsel : Bit} (ha : s.bus a = some va)
    (hb : s.bus b = some vb) (hsel : s.bit sel = some vsel) :
    exec (.mux16 a b sel) s = .next (s.settle (.mux16 a b sel) (Gate.mux16 va vb vsel)) := by
  simp only [exec, execMux16, ha, hb, hsel, Option.bind_eq_bind, Option.bind_some]; rfl

theorem exec_or8way {x : Pins 8} {vx : Bits8} (hx : s.bus x = some vx) :
    exec (.or8way x) s = .next (s.settle (.or8way x) (Bus.one (Gate.or8way vx))) := by
  simp only [exec, execOr8way, hx, Option.bind_eq_bind, Option.bind_some]; rfl

theorem exec_mux4way16 {a b c d : Pins 16} {sel : Pins 2} {va vb vc vd : Bits16} {vsel : Bits2}
    (ha : s.bus a = some va) (hb : s.bus b = some vb) (hc : s.bus c = some vc) (hd : s.bus d = some vd)
    (hsel : s.bus sel = some vsel) :
    exec (.mux4way16 a b c d sel) s =
      .next (s.settle (.mux4way16 a b c d sel) (Gate.mux4way16 va vb vc vd vsel)) := by
  simp only [exec, execMux4way16, ha, hb, hc, hd, hsel, Option.bind_eq_bind, Option.bind_some]; rfl

theorem exec_mux8way16 {a b c d e f g h : Pins 16} {sel : Pins 3} {va vb vc vd ve vf vg vh : Bits16} {vsel : Bits3}
    (ha : s.bus a = some va) (hb : s.bus b = some vb) (hc : s.bus c = some vc) (hd : s.bus d = some vd)
    (he : s.bus e = some ve) (hf : s.bus f = some vf) (hg : s.bus g = some vg) (hh : s.bus h = some vh)
    (hsel : s.bus sel = some vsel) :
    exec (.mux8way16 a b c d e f g h sel) s =
      .next (s.settle (.mux8way16 a b c d e f g h sel) (Gate.mux8way16 va vb vc vd ve vf vg vh vsel)) := by
  simp only [exec, execMux8way16, ha, hb, hc, hd, he, hf, hg, hh, hsel, Option.bind_eq_bind, Option.bind_some]; rfl

theorem exec_dmux4way {x : Driver} {sel : Pins 2} {vx : Bit} {vsel : Bits2} (hx : s.bit x = some vx)
    (hsel : s.bus sel = some vsel) :
    exec (.dmux4way x sel) s = .next (s.settle (.dmux4way x sel) (Gate.dmux4way vx vsel)) := by
  simp only [exec, execDmux4way, hx, hsel, Option.bind_eq_bind, Option.bind_some]; rfl

theorem exec_dmux8way {x : Driver} {sel : Pins 3} {vx : Bit} {vsel : Bits3} (hx : s.bit x = some vx)
    (hsel : s.bus sel = some vsel) :
    exec (.dmux8way x sel) s = .next (s.settle (.dmux8way x sel) (Gate.dmux8way vx vsel)) := by
  simp only [exec, execDmux8way, hx, hsel, Option.bind_eq_bind, Option.bind_some]; rfl

theorem exec_halfAdder {a b : Driver} {va vb : Bit} (ha : s.bit a = some va) (hb : s.bit b = some vb) :
    exec (.halfAdder a b) s = .next (s.settle (.halfAdder a b) (Gate.halfAdder va vb)) := by
  simp only [exec, execHalfAdder, ha, hb, Option.bind_eq_bind, Option.bind_some]; rfl

theorem exec_fullAdder {a b c : Driver} {va vb vc : Bit} (ha : s.bit a = some va) (hb : s.bit b = some vb)
    (hc : s.bit c = some vc) :
    exec (.fullAdder a b c) s = .next (s.settle (.fullAdder a b c) (Gate.fullAdder va vb vc)) := by
  simp only [exec, execFullAdder, ha, hb, hc, Option.bind_eq_bind, Option.bind_some]; rfl

theorem exec_add16 {a b : Pins 16} {va vb : Bits16} (ha : s.bus a = some va) (hb : s.bus b = some vb) :
    exec (.add16 a b) s = .next (s.settle (.add16 a b) (Gate.add16 va vb)) := by
  simp only [exec, execAdd16, ha, hb, Option.bind_eq_bind, Option.bind_some]; rfl

theorem exec_inc16 {a : Pins 16} {va : Bits16} (ha : s.bus a = some va) :
    exec (.inc16 a) s = .next (s.settle (.inc16 a) (Gate.inc16 va)) := by
  simp only [exec, execInc16, ha, Option.bind_eq_bind, Option.bind_some]; rfl

end Sys2Proof.Machine
end

