-- ==== Sys2Proof/Machine/Flags.lean ====
section
/-! DEFINITION. Flags: the block has none (10_state.md R32), so no flag computation exists. The `carry` outputs of `half_adder`
and `full_adder` are ordinary output pins, and the carry out of bit 15 of `add16` is discarded (R125, R161). -/
end

