-- ==== Sys2Proof/Machine/TextParse.lean ====
section
/-! DEFINITION. Reading a netlist text from its characters by the grammar of 30_encoding.md R65. What the grammar leaves to the
reader (the letters of a name, blanks, blank lines, a last line without its newline) is log 12. -/

namespace Sys2Proof

/-- The tokens of R65. -/
inductive Token where
  | name (s : String)
  | num (n : Nat)
  | lpar | rpar | lbrk | rbrk | comma | equals | colon | arrow | dots | newline
deriving DecidableEq, Repr

/-- The code of `c` lies from `lo` to `hi`, both included. -/
def codeIn (lo hi : Nat) (c : Char) : Bool := Nat.ble lo c.toNat && Nat.ble c.toNat hi

/-- A decimal digit. -/
def digitChar (c : Char) : Bool := codeIn 48 57 c

/-- A letter `A` to `Z` or `a` to `z`, or an underscore, begins a name. -/
def nameStart (c : Char) : Bool := codeIn 97 122 c || codeIn 65 90 c || Nat.beq c.toNat 95

/-- Letters, digits and underscores go on with it. -/
def nameChar (c : Char) : Bool := nameStart c || digitChar c

/-- The number that decimal digits stand for. -/
def digitsValue (ds : List Char) : Nat := ds.foldl (fun n c => 10 * n + (c.toNat - 48)) 0

/-- The one-character tokens, by the code of the character. -/
def punctuation : List (Nat × Token) :=
  [(40, .lpar), (41, .rpar), (91, .lbrk), (93, .rbrk), (44, .comma), (61, .equals), (58, .colon), (10, .newline)]

/-- The tokens of a text; a comment runs from `#` (35) to the end of its line, a blank or tab (32, 9) separates, `->` is 45
and 62, `..` is 46 twice. `fuel` is at least the number of characters. -/
def lexChars : Nat → List Char → Option (List Token)
  | 0, [] => some []
  | 0, _ :: _ => none
  | _ + 1, [] => some []
  | fuel + 1, c :: rest =>
    if nameStart c then
      (lexChars fuel (rest.dropWhile nameChar)).map (.name (String.ofList (c :: rest.takeWhile nameChar)) :: ·)
    else if digitChar c then
      (lexChars fuel (rest.dropWhile digitChar)).map (.num (digitsValue (c :: rest.takeWhile digitChar)) :: ·)
    else if c.toNat == 32 || c.toNat == 9 then lexChars fuel rest
    else if c.toNat == 35 then lexChars fuel (rest.dropWhile fun d => !Nat.beq d.toNat 10)
    else
      match punctuation.lookup c.toNat with
      | some t => (lexChars fuel rest).map (t :: ·)
      | none =>
        match rest with
        | [] => none
        | d :: rest' =>
          if c.toNat == 45 && d.toNat == 62 then (lexChars fuel rest').map (.arrow :: ·)
          else if c.toNat == 46 && d.toNat == 46 then (lexChars fuel rest').map (.dots :: ·)
          else none

/-- R65: a break after a comma inside parentheses or brackets is layout; `depth` counts what is open, `after` says whether
the last token kept is a comma. -/
def dropLayout : Nat → Bool → List Token → List Token
  | _, _, [] => []
  | depth, after, t :: rest =>
    match t with
    | .newline => if after = true ∧ 0 < depth then dropLayout depth after rest else .newline :: dropLayout depth false rest
    | .comma => .comma :: dropLayout depth true rest
    | .lpar => .lpar :: dropLayout (depth + 1) false rest
    | .lbrk => .lbrk :: dropLayout (depth + 1) false rest
    | .rpar => .rpar :: dropLayout (depth - 1) false rest
    | .rbrk => .rbrk :: dropLayout (depth - 1) false rest
    | t => t :: dropLayout depth false rest

/-- The names that stand for something else in an argument (log 12). -/
def reservedName (s : String) : Bool := s == "zero16" || s == "one16" || s == "netlist"

/-- A name that may be bound. -/
def plainName (s : String) : Option String := if reservedName s then none else some s

mutual
/-- R65 `arg`. -/
def parseArg : Nat → List Token → Option (TextArg × List Token)
  | 0, _ => none
  | _ + 1, .num 0 :: rest => some (.const false, rest)
  | _ + 1, .num 1 :: rest => some (.const true, rest)
  | fuel + 1, .lbrk :: rest =>
    match parseArgs fuel .rbrk rest with
    | some (args, rest') => some (.bus args, rest')
    | none => none
  | fuel + 1, .name n :: .lpar :: rest =>
    match parseArgs fuel .rpar rest with
    | some (args, rest') => some (.nested n args, rest')
    | none => none
  | _ + 1, .name n :: .lbrk :: .num i :: .rbrk :: rest => (plainName n).map fun n => (.bit n i, rest)
  | _ + 1, .name n :: .lbrk :: .num lo :: .dots :: .num hi :: .rbrk :: rest =>
    (plainName n).map fun n => (.sub n lo hi, rest)
  | _ + 1, .name n :: rest =>
    if n == "zero16" then some (.zero16, rest)
    else if n == "one16" then some (.one16, rest)
    else (plainName n).map fun n => (.whole n, rest)
  | _ + 1, _ => none
/-- `arg ("," arg)*` up to the token `close`. -/
def parseArgs : Nat → Token → List Token → Option (TextArgs × List Token)
  | 0, _, _ => none
  | fuel + 1, close, ts =>
    match parseArg fuel ts with
    | some (a, .comma :: rest) =>
      match parseArgs fuel close rest with
      | some (as, rest') => some (.cons a as, rest')
      | none => none
    | some (a, t :: rest) => if t = close then some (.cons a .nil, rest) else none
    | some (_, []) => none
    | none => none
end

/-- `NAME ("," NAME)*` up to the closing bracket. -/
def parseNames : List Token → Option (List String × List Token)
  | .name n :: .comma :: rest =>
    match plainName n, parseNames rest with
    | some n, some (ns, rest') => some (n :: ns, rest')
    | _, _ => none
  | .name n :: .rbrk :: rest => (plainName n).map fun n => ([n], rest)
  | _ => none

/-- R65 `target`, with the `=` behind it. -/
def parseTarget : List Token → Option (TextTarget × List Token)
  | .name n :: .equals :: rest => (plainName n).map fun n => (.whole n, rest)
  | .lbrk :: rest =>
    match parseNames rest with
    | some (ns, .equals :: rest') => some (.bits ns, rest')
    | _ => none
  | _ => none

/-- R65 `line`. -/
def parseLine (fuel : Nat) (ts : List Token) : Option (TextLine × List Token) :=
  match parseTarget ts with
  | some (target, .name op :: .lpar :: rest) =>
    match parseArgs fuel .rpar rest with
    | some (args, .newline :: rest') => some (⟨target, op, args⟩, rest')
    | _ => none
  | _ => none

/-- The lines to the end of the text; an empty line is layout (log 12). -/
def parseLines : Nat → List Token → Option (List TextLine)
  | _, [] => some []
  | 0, _ :: _ => none
  | fuel + 1, .newline :: rest => parseLines fuel rest
  | fuel + 1, ts =>
    match parseLine fuel ts with
    | some (line, rest) => (parseLines fuel rest).map (line :: ·)
    | none => none

/-- R65 `WIDTH`. -/
def parseWidth : Nat → Option PortWidth
  | 1 => some .w1 | 2 => some .w2 | 3 => some .w3 | 4 => some .w4 | 8 => some .w8 | 16 => some .w16
  | _ => none

/-- R65 `ports`, with the closing parenthesis. -/
def parsePorts : List Token → Option (List TextPort × List Token)
  | .name n :: .colon :: .num w :: .comma :: rest =>
    match plainName n, parseWidth w, parsePorts rest with
    | some n, some w, some (ports, rest') => some (⟨n, w⟩ :: ports, rest')
    | _, _, _ => none
  | .name n :: .colon :: .num w :: .rpar :: rest =>
    match plainName n, parseWidth w with
    | some n, some w => some ([⟨n, w⟩], rest)
    | _, _ => none
  | _ => none

/-- R65 `netlist`, from its tokens: a header line and at least one line. -/
def parseTokens (fuel : Nat) : List Token → Option TextNetlist
  | .newline :: rest => parseTokens fuel rest
  | .name kw :: .name n :: .lpar :: rest =>
    if kw == "netlist" then
      match parsePorts rest with
      | some (ins, .arrow :: .lpar :: rest') =>
        match parsePorts rest' with
        | some (outs, .newline :: rest'') =>
          match parseLines fuel rest'' with
          | some (line :: lines) => some ⟨n, ins, outs, line :: lines⟩
          | _ => none
        | _ => none
      | _ => none
    else none
  | _ => none

/-- R65: the netlist text that characters spell, if they spell one. A newline is supplied at the end (log 12). -/
def parseText (cs : List Char) : Option TextNetlist :=
  match lexChars (cs.length + 1) (cs ++ ['\n']) with
  | some ts => parseTokens (2 * ts.length + 2) (dropLayout 0 false ts)
  | none => none

end Sys2Proof
end

