-- ==== Sys2Proof/Tests/Slice0.lean ====
section
/-! SUPPORT. Small tests, their expected values from 95_test_vectors.md (V1 to V17, T10, P1 to P6) and the encodings of
30_encoding.md R57, and for each obligation with hypotheses a witness that meets them together. -/

namespace Sys2Proof.Tests

open Sys2Proof.Machine

set_option Elab.async false

/-! Helpers -/

/-- A 16-bit bus by its number, index 0 first. -/
def word (u : Nat) : List Bit := Bus.bits (BitVec.ofNat 16 u)

/-- Bits by digits, index 0 first. -/
def bitList (ds : List Nat) : List Bit := ds.map fun d => d == 1

/-- A state whose input ports carry these levels, with this wiring to come. -/
def stateOn (ports : List (List Bit)) (pending : List RawInst) (outputs : List OutPort := []) : State :=
  { ports := ports.map fun l => ⟨"in", l.length⟩, inputs := ⟨ports, by simp [Function.comp_def]⟩, settled := [],
    pending := pending, outputs := outputs }

/-- One step of a machine whose one pending instance is `i`: the output that settles. -/
def run (i : Instr) (ports : List (List Bit)) : Option (List Bit) :=
  match step (stateOn ports [encode i]) with
  | .next t => t.settled[0]?.map fun c => c.out.bits
  | _ => none

/-- The refusal of one step. -/
def refusal (s : State) : Option Refusal :=
  match step s with
  | .refused r => some r
  | _ => none

/-- The check that refuses a text. -/
def failure (t : TextNetlist) : Option TextCheck :=
  match elaborate t with
  | .ok _ => none
  | .error c => some c

/-- Short lines as one text. -/
def textOf (ls : List String) : List Char := ls.flatMap fun l => l.toList ++ ['\n']

/-- Port `p` as a 1-bit driver. -/
def pin (p : Nat) : Driver := .port p 0

/-- A two-input operation on all of V3's rows, in their order. -/
def table2 (i : Driver → Driver → Instr) : List (Option (List Bit)) :=
  [[0, 0], [0, 1], [1, 0], [1, 1]].map fun row => run (i (pin 0) (pin 1)) (row.map fun d => bitList [d])

/-- A three-input operation on all eight rows. -/
def table3 (i : Driver → Driver → Driver → Instr) : List (Option (List Bit)) :=
  [[0, 0, 0], [0, 0, 1], [0, 1, 0], [0, 1, 1], [1, 0, 0], [1, 0, 1], [1, 1, 0], [1, 1, 1]].map fun row =>
    run (i (pin 0) (pin 1) (pin 2)) (row.map fun d => bitList [d])

/-- 1-bit results. -/
def ones (ds : List Nat) : List (Option (List Bit)) := ds.map fun d => some (bitList [d])

/-! One step of each operation -/

/-- V1. -/
theorem test_nand : table2 .nand = ones [1, 1, 1, 0] := by decide +kernel
/-- V2. -/
theorem test_not : run (.not (pin 0)) [[false]] = some [true] ∧ run (.not (pin 0)) [[true]] = some [false] := by
  decide +kernel
/-- V3. -/
theorem test_and : table2 .and = ones [0, 0, 0, 1] := by decide +kernel
/-- V3. -/
theorem test_or : table2 .or = ones [0, 1, 1, 1] := by decide +kernel
/-- V3. -/
theorem test_nor : table2 .nor = ones [1, 0, 0, 0] := by decide +kernel
/-- V3. -/
theorem test_xor : table2 .xor = ones [0, 1, 1, 0] := by decide +kernel
/-- V4: rows in the order of `a`, `b`, `sel`. -/
theorem test_mux : table3 .mux = ones [0, 0, 0, 1, 1, 0, 1, 1] := by decide +kernel
/-- V5. -/
theorem test_dmux : table2 .dmux = [[0, 0], [0, 0], [1, 0], [0, 1]].map (some ∘ bitList) := by decide +kernel
/-- V6. -/
theorem test_not16 : run (.not16 (portPins 16 0)) [word 0x1234] = some (word 0xEDCB) := by decide +kernel
/-- V6. -/
theorem test_and16 :
    run (.and16 (portPins 16 0) (portPins 16 1)) [word 0x1234, word 0xFF00] = some (word 0x1200) := by decide +kernel
/-- V6. -/
theorem test_or16 :
    run (.or16 (portPins 16 0) (portPins 16 1)) [word 0x1234, word 0xFF00] = some (word 0xFF34) := by decide +kernel
/-- V6. -/
theorem test_mux16 :
    run (.mux16 (portPins 16 0) (portPins 16 1) (pin 2)) [word 0x1234, word 0xABCD, [true]] = some (word 0xABCD) ∧
    run (.mux16 (portPins 16 0) (portPins 16 1) (pin 2)) [word 0x1234, word 0xABCD, [false]] = some (word 0x1234) := by
  decide +kernel
/-- V7, T5: all zero, and one `1` at index 5. -/
theorem test_or8way :
    run (.or8way (portPins 8 0)) [bitList [0, 0, 0, 0, 0, 0, 0, 0]] = some [false] ∧
    run (.or8way (portPins 8 0)) [bitList [0, 0, 0, 0, 0, 1, 0, 0]] = some [true] := by decide +kernel
/-- V8: `sel = [1, 0]` selects `b`, `[0, 1]` selects `c`. -/
theorem test_mux4way16 :
    [[1, 0], [0, 1]].map (fun sel =>
      run (.mux4way16 (portPins 16 0) (portPins 16 1) (portPins 16 2) (portPins 16 3) (portPins 2 4))
        [word 0x1111, word 0x2222, word 0x3333, word 0x4444, bitList sel]) =
      [some (word 0x2222), some (word 0x3333)] := by decide +kernel
/-- V9: `sel = [0, 1, 1]` selects `g`, `[1, 1, 0]` selects `d`. -/
theorem test_mux8way16 :
    [[0, 1, 1], [1, 1, 0]].map (fun sel =>
      run (.mux8way16 (portPins 16 0) (portPins 16 1) (portPins 16 2) (portPins 16 3) (portPins 16 4) (portPins 16 5)
          (portPins 16 6) (portPins 16 7) (portPins 3 8))
        [word 0x1111, word 0x2222, word 0x3333, word 0x4444, word 0x5555, word 0x6666, word 0x7777, word 0x8888,
         bitList sel]) =
      [some (word 0x7777), some (word 0x4444)] := by decide +kernel
/-- V10. -/
theorem test_dmux4way :
    [[0, 0], [1, 0], [0, 1], [1, 1]].map (fun sel => run (.dmux4way (pin 0) (portPins 2 1)) [[true], bitList sel]) =
      [[1, 0, 0, 0], [0, 1, 0, 0], [0, 0, 1, 0], [0, 0, 0, 1]].map (some ∘ bitList) := by decide +kernel
/-- V10. -/
theorem test_dmux8way :
    run (.dmux8way (pin 0) (portPins 3 1)) [[true], bitList [1, 0, 1]] = some (bitList [0, 0, 0, 0, 0, 1, 0, 0]) ∧
    run (.dmux8way (pin 0) (portPins 3 1)) [[true], bitList [0, 1, 1]] = some (bitList [0, 0, 0, 0, 0, 0, 1, 0]) := by
  decide +kernel
/-- V11. -/
theorem test_halfAdder : table2 .halfAdder = [[0, 0], [1, 0], [1, 0], [0, 1]].map (some ∘ bitList) := by
  decide +kernel
/-- V12. -/
theorem test_fullAdder :
    table3 .fullAdder =
      [[0, 0], [1, 0], [1, 0], [0, 1], [1, 0], [0, 1], [0, 1], [1, 1]].map (some ∘ bitList) := by decide +kernel
/-- T10 scenario 5, and V13 "12345 + 54321". -/
theorem test_add16 :
    run (.add16 (portPins 16 0) (portPins 16 1)) [word 0x8000, word 0x8000] = some (word 0x0000) ∧
    run (.add16 (portPins 16 0) (portPins 16 1)) [word 0x3039, word 0xD431] = some (word 0x046A) := by decide +kernel
/-- T10 scenario 6, and V15. -/
theorem test_inc16 :
    run (.inc16 (portPins 16 0)) [word 0xFFFF] = some (word 0x0000) ∧
    run (.inc16 (portPins 16 0)) [word 0x00FF] = some (word 0x0100) := by decide +kernel
/-- R27: one wire on both pins. -/
theorem test_aliased_operands : run (.add16 (portPins 16 0) (portPins 16 0)) [word 0x4001] = some (word 0x8002) := by
  decide +kernel

/-! Decoding: words written out from R57, a driver of its own on every port -/

/-- Layers L0 and L1. -/
theorem test_decode_words_L0_L1 :
    [(⟨0b000_00000#8, ⟨[[pin 0], [pin 1]], rfl⟩⟩ : RawInst), ⟨0b000_00001#8, ⟨[[pin 0]], rfl⟩⟩, ⟨0b000_00010#8, ⟨[[pin 0], [pin 1]], rfl⟩⟩,
      ⟨0b000_00011#8, ⟨[[pin 0], [pin 1]], rfl⟩⟩, ⟨0b000_00100#8, ⟨[[pin 0], [pin 1]], rfl⟩⟩, ⟨0b000_00101#8, ⟨[[pin 0], [pin 1]], rfl⟩⟩,
      ⟨0b000_00110#8, ⟨[[pin 0], [pin 1], [pin 2]], rfl⟩⟩, ⟨0b000_00111#8, ⟨[[pin 0], [pin 1]], rfl⟩⟩].map (fun r => (decode r).toOption) =
    [some (.nand (pin 0) (pin 1)), some (.not (pin 0)), some (.and (pin 0) (pin 1)), some (.or (pin 0) (pin 1)),
      some (.nor (pin 0) (pin 1)), some (.xor (pin 0) (pin 1)), some (.mux (pin 0) (pin 1) (pin 2)),
      some (.dmux (pin 0) (pin 1))] := by decide +kernel

/-- The drivers of a port. -/
def port (n p : Nat) : List Driver := (portPins n p).drivers

/-- Layer L2. -/
theorem test_decode_words_L2 :
    [(⟨0b000_01000#8, ⟨[port 16 0], rfl⟩⟩ : RawInst), ⟨0b000_01001#8, ⟨[port 16 0, port 16 1], rfl⟩⟩,
      ⟨0b000_01010#8, ⟨[port 16 0, port 16 1], rfl⟩⟩, ⟨0b000_01011#8, ⟨[port 16 0, port 16 1, [pin 2]], rfl⟩⟩,
      ⟨0b000_01100#8, ⟨[port 8 0], rfl⟩⟩, ⟨0b000_01101#8, ⟨[port 16 0, port 16 1, port 16 2, port 16 3, port 2 4], rfl⟩⟩,
      ⟨0b000_01110#8, ⟨[port 16 0, port 16 1, port 16 2, port 16 3, port 16 4, port 16 5, port 16 6, port 16 7, port 3 8], rfl⟩⟩,
      ⟨0b000_01111#8, ⟨[[pin 0], port 2 1], rfl⟩⟩, ⟨0b000_10000#8, ⟨[[pin 0], port 3 1], rfl⟩⟩].map (fun r => (decode r).toOption) =
    [some (.not16 (portPins 16 0)), some (.and16 (portPins 16 0) (portPins 16 1)),
      some (.or16 (portPins 16 0) (portPins 16 1)), some (.mux16 (portPins 16 0) (portPins 16 1) (pin 2)),
      some (.or8way (portPins 8 0)),
      some (.mux4way16 (portPins 16 0) (portPins 16 1) (portPins 16 2) (portPins 16 3) (portPins 2 4)),
      some (.mux8way16 (portPins 16 0) (portPins 16 1) (portPins 16 2) (portPins 16 3) (portPins 16 4) (portPins 16 5)
        (portPins 16 6) (portPins 16 7) (portPins 3 8)),
      some (.dmux4way (pin 0) (portPins 2 1)), some (.dmux8way (pin 0) (portPins 3 1))] := by decide +kernel

/-- Layer L3. -/
theorem test_decode_words_L3 :
    [(⟨0b000_10001#8, ⟨[[pin 0], [pin 1]], rfl⟩⟩ : RawInst), ⟨0b000_10010#8, ⟨[[pin 0], [pin 1], [pin 2]], rfl⟩⟩,
      ⟨0b000_10011#8, ⟨[port 16 0, port 16 1], rfl⟩⟩, ⟨0b000_10100#8, ⟨[port 16 0], rfl⟩⟩].map (fun r => (decode r).toOption) =
    [some (.halfAdder (pin 0) (pin 1)), some (.fullAdder (pin 0) (pin 1) (pin 2)),
      some (.add16 (portPins 16 0) (portPins 16 1)), some (.inc16 (portPins 16 0))] := by decide +kernel

/-- V17: indices 21 and 31, and a word with a bit above the index, name no operation. -/
theorem test_decode_refuses_reserved :
    [0b000_10101#8, 0b000_11111#8, 0b001_00000#8].map (fun w => refusal (stateOn [] [RawInst.tied w])) =
      [some (.noSuchOperation 0b000_10101#8), some (.noSuchOperation 0b000_11111#8),
       some (.noSuchOperation 0b001_00000#8)] := by decide +kernel
/-- V17 `arity` and `width`, where a connection is made; R162: after that there is no such case. -/
theorem test_wrong_shapes :
    (placeInst .and [] [[pin 0]]).toOption = none ∧ (placeInst .and16 [] [port 16 0, port 1 1]).toOption = none ∧
    (placeInst .and [] [[pin 0], [pin 1]]).toOption = some ([.and (pin 0) (pin 1)], [.cell 0 0]) := by decide +kernel
/-- R182: a pin that nothing drives. -/
theorem test_undriven_pin : refusal (stateOn [[true]] [encode (.not (pin 1))]) = some .undrivenPin := by decide +kernel
/-- The host's two questions, on the first row of the opcode table, all pins tied to `0` (log 6): `nand(0, 0) = 1`. -/
theorem test_fetch_word :
    step (State.reset.withFetchWord 8 0x00) =
      .next { State.reset with settled := [⟨.nand (.const false) (.const false), Bus.one true⟩] } := by rfl

/-! WellFormed refuses an ill-formed netlist -/

/-- A netlist on one 1-bit and one 2-bit port. -/
def small (insts : List Instr) (out : Driver) : Netlist := ⟨[⟨"a", 1⟩, ⟨"b", 2⟩], insts, [⟨"z", [out]⟩]⟩

/-- A well-formed one passes. -/
theorem test_wf_accepts : (small [.not (.port 1 1), .and (.port 0 0) (.cell 0 0)] (.cell 1 0)).wellFormed = true := by
  decide +kernel
/-- R64(1): a bit that the port has not. -/
theorem test_wf_refuses_port_bit : (small [.not (.port 0 1)] (.cell 0 0)).wellFormed = false := by decide +kernel
/-- R64(1): a port that does not exist. -/
theorem test_wf_refuses_port : (small [.not (.port 2 0)] (.cell 0 0)).wellFormed = false := by decide +kernel
/-- R64(2): an instance that reads itself, a loop. -/
theorem test_wf_refuses_loop : (small [.not (.cell 0 0)] (.cell 0 0)).wellFormed = false := by decide +kernel
/-- R64(2): an instance that reads a later one. -/
theorem test_wf_refuses_later :
    (small [.not (.cell 1 0), .not (.port 0 0)] (.cell 0 0)).wellFormed = false := by decide +kernel
/-- R64(1): an output pin that the instance has not. -/
theorem test_wf_refuses_cell_bit : (small [.not (.port 0 0)] (.cell 0 1)).wellFormed = false := by decide +kernel

/-! The seven checks of R66, on the rows of V17 -/

/-- Arguments of a text. -/
def argList : List TextArg → TextArgs
  | [] => .nil
  | a :: rest => .cons a (argList rest)

/-- The line `target = op(names)`. -/
def lineOf (target op : String) (args : List TextArg) : TextLine := ⟨.whole target, op, argList args⟩

/-- A text on `a: 1`, `b: 1`, `s: 16` with output `z: 1`. -/
def textWith (lines : List TextLine) : TextNetlist :=
  ⟨"t", [⟨"a", .w1⟩, ⟨"b", .w1⟩, ⟨"s", .w16⟩], [⟨"z", .w1⟩], lines⟩

/-- A well-formed text passes. -/
theorem test_text_accepts : failure (textWith [lineOf "z" "and" [.whole "a", .bit "s" 15]]) = none := by decide +kernel
/-- V17. -/
theorem test_text_arity : failure (textWith [lineOf "z" "and" [.whole "a"]]) = some .arity := by decide +kernel
/-- V17. -/
theorem test_text_width : failure (textWith [lineOf "z" "and16" [.whole "s", .whole "a"]]) = some .width := by
  decide +kernel
/-- V17: a combinational loop. -/
theorem test_text_defined_before_use :
    failure (textWith [lineOf "y" "not" [.whole "y"], lineOf "z" "not" [.whole "a"]]) = some .definedBeforeUse := by
  decide +kernel
/-- V17. -/
theorem test_text_single_assignment :
    failure (textWith [lineOf "z" "not" [.whole "a"], lineOf "z" "not" [.whole "b"]]) = some .singleAssignment ∧
    failure (textWith [lineOf "a" "not" [.whole "b"], lineOf "z" "not" [.whole "a"]]) = some .singleAssignment := by
  decide +kernel
/-- V17. -/
theorem test_text_outputs_bound : failure (textWith [lineOf "y" "not" [.whole "a"]]) = some .outputsBound := by
  decide +kernel
/-- V17. -/
theorem test_text_index_in_range :
    failure (textWith [lineOf "z" "or8way" [.sub "s" 8 16]]) = some .indexInRange ∧
    failure (textWith [lineOf "z" "or8way" [.sub "s" 7 0]]) = some .indexInRange ∧
    failure (textWith [lineOf "z" "not" [.bit "s" 16]]) = some .indexInRange := by decide +kernel
/-- V17. -/
theorem test_text_known_operation :
    failure (textWith [lineOf "z" "nand3" [.whole "a", .whole "a", .whole "b"]]) = some .knownOperation := by
  decide +kernel

/-! The programs -/

/-- What the program of these lines lists as (R68). -/
def listingOf (ls : List String) : Option (List (BitVec 5)) :=
  (parseText (textOf ls)).bind fun t => (elaborate t).toOption.map Netlist.listing

/-- What the program of these lines computes, by R67 and by the machine, where the two agree. -/
def valueOf (ls : List String) (ports : List (List Bit)) : Option (List (List Bit)) :=
  (parseText (textOf ls)).bind fun t =>
    match elaborate t with
    | .ok n =>
      if h : ports.map List.length = n.inputWidths ∧ ports.map List.length = t.inputWidths then
        match evalText t ⟨ports, h.2⟩, steps n.insts.length (State.load n ⟨ports, h.1⟩) with
        | some v, .next s => if s.readOutputs = some v then some v else none
        | _, _ => none
      else none
    | .error _ => none

/-- P1, with two of its comments. -/
def p1 : List String :=
  ["netlist p1(a: 1,", "b: 1) -> (sum: 1,", "carry: 1)", "n1    = nand(a, b)  # xor", "n2 = nand(a, a)",
   "n3 = nand(b, b)", "n4 = nand(n2, n3)", "n5 = nand(n1, n4)", "sum = nand(n5, n5)", "n7 = nand(a, b)  # and",
   "carry = nand(n7, n7)"]

theorem test_p1_listing : listingOf p1 = some (List.replicate 8 0b00000) := by decide +kernel
theorem test_p1_value :
    valueOf p1 [[true], [false]] = some [[true], [false]] ∧ valueOf p1 [[true], [true]] = some [[false], [true]] := by
  decide +kernel

/-- P2. -/
def p2 : List String := ["netlist p2(a: 16,", " sel: 1) -> (out: 16)", "t   = inc16(a)", "out = mux16(a, t, sel)"]

theorem test_p2 :
    listingOf p2 = some [0b10100, 0b01011] ∧ valueOf p2 [word 0x00FF, [true]] = some [word 0x0100] ∧
    valueOf p2 [word 0xFFFF, [false]] = some [word 0xFFFF] := by decide +kernel

/-- P3. -/
def p3 : List String :=
  ["netlist p3(a: 16,", " b: 16) -> (d: 16)", "n = not16(b)", "m = inc16(n)", "d = add16(a, m)"]

theorem test_p3 :
    listingOf p3 = some [0b01000, 0b10100, 0b10011] ∧
    valueOf p3 [word 0x0003, word 0x0005] = some [word 0xFFFE] := by decide +kernel

/-- P4. -/
def p4 : List String :=
  ["netlist p4(x: 1,", " sel: 3) -> (y: 8,", "z: 1)", "y = dmux8way(x, sel)", "z = or8way(y)"]

theorem test_p4 :
    listingOf p4 = some [0b10000, 0b01100] ∧
    valueOf p4 [[true], bitList [1, 0, 1]] = some [bitList [0, 0, 0, 0, 0, 1, 0, 0], [true]] := by decide +kernel

/-- P5. -/
def p5 : List String :=
  ["netlist p5(a: 16,", " b: 16) -> (s: 16,", " zr: 1)", "s  = add16(a, b)", "lo = or8way(s[0..7])",
   "hi = or8way(s[8..15])", "zr = nor(lo, hi)"]

theorem test_p5 :
    listingOf p5 = some [0b10011, 0b01100, 0b01100, 0b00100] ∧
    valueOf p5 [word 0x8000, word 0x8000] = some [word 0x0000, [true]] ∧
    valueOf p5 [word 0x00FF, word 0x0001] = some [word 0x0100, [false]] := by decide +kernel

/-- P6. -/
def p6 : List String :=
  ["netlist p6(sel: 3) -> (m: 16,",
   " r: 16)",
   "m = mux8way16([1,0,0,0,0,0,0,0,0,0,0,0,0,0,0,0],",
   "[0,1,0,0,0,0,0,0,0,0,0,0,0,0,0,0],",
   "[0,0,1,0,0,0,0,0,0,0,0,0,0,0,0,0],",
   "[0,0,0,1,0,0,0,0,0,0,0,0,0,0,0,0],",
   "[0,0,0,0,1,0,0,0,0,0,0,0,0,0,0,0],",
   "[0,0,0,0,0,1,0,0,0,0,0,0,0,0,0,0],",
   "[0,0,0,0,0,0,1,0,0,0,0,0,0,0,0,0],",
   "[0,0,0,0,0,0,0,1,0,0,0,0,0,0,0,0], sel)",
   "r = add16(m, m)"]

theorem test_p6 :
    listingOf p6 = some [0b01110, 0b10011] ∧
    valueOf p6 [bitList [1, 0, 1]] = some [word 0x0020, word 0x0040] := by decide +kernel

/-- R65: a bracketed target, constants and nested instances; R68 lists those innermost and leftmost first. By the recipes,
`full_adder(1, 1, 0) = [0, 1]` and `xor(nand(0, 1), not(1)) = 1`. -/
def p7 : List String :=
  ["# all forms", "netlist p7(a: 1) -> (z: 1)", "[s, c] = full_adder(a, 1,", "0)", "z = xor(nand(s, c), not(c))"]

theorem test_p7 :
    listingOf p7 = some [0b10010, 0b00000, 0b00001, 0b00101] ∧ valueOf p7 [[true]] = some [[true]] := by decide +kernel

/-- R188 on P4: `dmux8way` 7 and `or8way` 6 in a row. -/
theorem test_settling_depth :
    ((parseText (textOf p4)).bind fun t => (elaborate t).toOption.bind Netlist.settlingDepth) = some 13 := by
  decide +kernel
/-- R188: an instance that drives no output port counts. -/
theorem test_settling_depth_unused :
    (⟨[⟨"a", 1⟩], [.mux (pin 0) (pin 0) (pin 0), .not (pin 0)], [⟨"z", [.cell 1 0]⟩]⟩ : Netlist).settlingDepth = some 5 := by
  decide +kernel
/-- R66: no behaviour for a text that fails a check (a rebound name). -/
theorem test_refused_text_has_no_value :
    evalText (textWith [lineOf "z" "not" [.whole "a"], lineOf "z" "not" [.whole "b"]])
      ⟨[[true], [false], word 0], by decide⟩ = none := by decide +kernel

/-! Witnesses: concrete values that meet the hypotheses of an obligation together -/

/-- Ports: 0 and 1 carry `0` and `1`; 2 to 9 the words of V9; 10 a bus of 8, 11 and 14 selectors of 2, 12 and 15 of 3; 13 the
word 65535. One instance has settled, to `1`. -/
def driven : State :=
  (stateOn [[false], [true], word 0x1111, word 0x2222, word 0x3333, word 0x4444, word 0x5555, word 0x6666, word 0x7777,
    word 0x8888, bitList [0, 0, 0, 0, 0, 1, 0, 0], bitList [0, 1], bitList [1, 1, 1], word 0xFFFF, bitList [0, 0],
    bitList [0, 0, 0]] []).settle (.not (pin 0)) (Bus.one true)

/-- Both levels of a 1-bit operand, and a settled cell and a constant as operands. -/
theorem witness_bits :
    driven.bit (pin 0) = some false ∧ driven.bit (pin 1) = some true ∧ driven.bit (.cell 0 0) = some true ∧
    driven.bit (.const false) = some false := by decide +kernel

theorem witness_NandOperation : driven.bit (pin 1) = some true ∧ driven.bit (.cell 0 0) = some true := by decide +kernel
theorem witness_ScalarGateOperations : driven.bit (pin 0) = some false ∧ driven.bit (pin 1) = some true := by
  decide +kernel
theorem witness_MuxOperation :
    driven.bit (pin 0) = some false ∧ driven.bit (pin 1) = some true ∧ driven.bit (.const true) = some true ∧
    driven.bit (.const false) = some false := by decide +kernel
theorem witness_DmuxOperation :
    driven.bit (pin 1) = some true ∧ driven.bit (.const true) = some true ∧ driven.bit (.const false) = some false := by
  decide +kernel
theorem witness_HalfAdderOperation : driven.bit (pin 1) = some true ∧ driven.bit (.cell 0 0) = some true := by
  decide +kernel
theorem witness_FullAdderOperation :
    driven.bit (pin 1) = some true ∧ driven.bit (pin 0) = some false ∧ driven.bit (.cell 0 0) = some true := by
  decide +kernel
/-- The highest lane, and each pair of the second clause. -/
theorem witness_LiftsAreLaneWise :
    15 < 16 ∧ (Op.not16, Op.not) ∈ [(Op.not16, Op.not), (Op.and16, Op.and), (Op.or16, Op.or), (Op.mux16, Op.mux)] := by
  decide
theorem witness_LaneWiseOperations :
    driven.bus (portPins 16 2) = some 0x1111#16 ∧ driven.bus (portPins 16 13) = some 0xFFFF#16 ∧
    driven.bit (pin 0) = some false ∧ driven.bit (pin 1) = some true := by decide +kernel
theorem witness_Or8wayOperation :
    driven.bus (portPins 8 10) = some 0b00100000#8 ∧
    driven.bus (Pins.of 8 fun _ => .const false) = some 0b00000000#8 := by decide +kernel
/-- The operands of `Mux4way16Operation` and `Mux8way16Operation`, each with the lowest and the highest selector value. -/
theorem witness_Mux4way16Operation :
    driven.bus (portPins 16 2) = some 0x1111#16 ∧ driven.bus (portPins 16 3) = some 0x2222#16 ∧
    driven.bus (portPins 16 4) = some 0x3333#16 ∧ driven.bus (portPins 16 5) = some 0x4444#16 ∧
    driven.bus (portPins 2 14) = some 0b00#2 ∧ driven.bus (Pins.of 2 fun _ => .const true) = some 0b11#2 := by
  decide +kernel
theorem witness_Mux8way16Operation :
    driven.bus (portPins 16 2) = some 0x1111#16 ∧ driven.bus (portPins 16 3) = some 0x2222#16 ∧
    driven.bus (portPins 16 4) = some 0x3333#16 ∧ driven.bus (portPins 16 5) = some 0x4444#16 ∧
    driven.bus (portPins 16 6) = some 0x5555#16 ∧ driven.bus (portPins 16 7) = some 0x6666#16 ∧
    driven.bus (portPins 16 8) = some 0x7777#16 ∧ driven.bus (portPins 16 9) = some 0x8888#16 ∧
    driven.bus (portPins 3 15) = some 0b000#3 ∧ driven.bus (portPins 3 12) = some 0b111#3 := by decide +kernel
theorem witness_DmuxTreesRouteToTheSelectedBranch :
    driven.bit (pin 1) = some true ∧ driven.bus (portPins 2 14) = some 0b00#2 ∧ driven.bus (portPins 2 11) = some 0b10#2 ∧
    driven.bus (portPins 3 15) = some 0b000#3 ∧ driven.bus (portPins 3 12) = some 0b111#3 := by decide +kernel
theorem witness_Add16Operation :
    driven.bus (portPins 16 13) = some 0xFFFF#16 ∧ driven.bus (portPins 16 2) = some 0x1111#16 := by decide +kernel
theorem witness_Inc16Operation : driven.bus (portPins 16 13) = some 0xFFFF#16 := by decide +kernel
/-- The largest operands, which wrap; and the largest without a wrap. -/
theorem witness_AdditionIsModulo65536 :
    65535 < 65536 ∧ 65536 ≤ 65535 + 65535 ∧ 65536 ≤ 65535 + 1 ∧
    driven.bus (portPins 16 13) = some (encodeNat 16 65535) := by decide +kernel
theorem witness_IncrementIsModulo65536 : 65535 < 65536 := by decide
/-- V16: the two ends of the representable sums. -/
theorem witness_AdditionReadAsTwosComplement :
    sdecode 0x7FFF#16 + sdecode 0x0000#16 = 32767 ∧ sdecode 0x8000#16 + sdecode 0x0000#16 = -32768 ∧
    -32768 ≤ sdecode 0x0005#16 + sdecode 0xFFFD#16 ∧ sdecode 0x0005#16 + sdecode 0xFFFD#16 ≤ 32767 := by decide +kernel
theorem witness_BooleanLaws : 0 < 16 ∧ 15 < 16 := by decide
theorem witness_EncodeAndDecodeAreInverse : 65535 < 2 ^ 16 ∧ 15 < 16 ∧ 0 < 2 ^ 0 := by decide
theorem witness_EverySelectorPatternSelects : 3 < 4 ∧ 7 < 8 := by decide
/-- Four words that carry the branches of `dmux4way` on lane 15, and eight that carry those of `dmux8way`. -/
theorem witness_DemultiplexersMirrorMultiplexers :
    (∀ j (v : Bits16), [0x0000#16, 0x0000#16, 0x8000#16, 0x0000#16][j]? = some v →
      Bus.at v 15 = Bus.at (Gate.dmux4way true 0b10#2) j) ∧
    (∀ j (v : Bits16),
      [0x0000#16, 0x0000#16, 0x0000#16, 0x0000#16, 0x0000#16, 0x8000#16, 0x0000#16, 0x0000#16][j]? = some v →
      Bus.at v 15 = Bus.at (Gate.dmux8way true 0b101#3) j) := by
  constructor
  · rintro (_ | _ | _ | _ | j) v h <;> simp at h <;> subst h <;> decide
  · rintro (_ | _ | _ | _ | _ | _ | _ | _ | j) v h <;> simp at h <;> subst h <;> decide

/-- The last index that names an operation, and the first and the last that name none. -/
theorem witness_OperationTable : 21 ≤ (0b10101#5).toNat ∧ 21 ≤ (0b11111#5).toNat ∧ Op.inc16.index = 0b10100#5 := by
  decide
theorem witness_EncodeInvertsDecode : decode ⟨0b000_00001#8, ⟨[[pin 0]], rfl⟩⟩ = .ok (.not (pin 0)) := by rfl
/-- Words at both ends of each clause. -/
theorem witness_DecodeAcceptsExactlyTheOperations :
    (RawInst.tied 21#8).word.toNat ≥ 21 ∧ (RawInst.tied 255#8).word.toNat ≥ 21 ∧ (RawInst.tied 0#8).word.toNat < 21 ∧
    (RawInst.tied 20#8).word.toNat < 21 := by decide +kernel
theorem witness_WidthsAreStructural :
    (RawInst.tied 20#8).word.toNat = Op.inc16.index.toNat ∧ ⟨.not (pin 0), Bus.one true⟩ ∈ driven.settled := by
  decide +kernel
/-- A pending instance that decodes; a reserved word; nothing pending. -/
theorem witness_StepRunsTheDecodedInstance :
    decode (encode (.nand (pin 0) (pin 1))) = .ok (.nand (pin 0) (pin 1)) ∧ (0b000_10101#8).toNat ≥ 21 ∧
    driven.pending = [] := ⟨rfl, by decide, rfl⟩
theorem witness_FrameOfAnInstance :
    exec (.not (.cell 0 0)) driven = .next (driven.settle (.not (.cell 0 0)) (Bus.one false)) := by rfl
theorem witness_NoOperationFails :
    ∀ p ∈ (Instr.mux16 (portPins 16 2) (portPins 16 13) (.cell 0 0)).args, ∀ d ∈ p, (driven.level d).isSome := by
  decide +kernel
/-- A port that does not exist, a bit that it has not, a cell that does not exist. -/
theorem witness_UndrivenPinsAreRefused :
    driven.level (pin 16) = none ∧ driven.level (.port 0 1) = none ∧ driven.level (.cell 1 0) = none ∧
    (pin 16 ∈ [pin 16] ∧ [pin 16] ∈ (Instr.not (pin 16)).args) := by decide +kernel
/-- Two states that differ everywhere else than at the pins of the instance. -/
theorem witness_OutputsDependOnlyOnThePins :
    (∀ p ∈ (Instr.not (pin 0)).args, ∀ d ∈ p, driven.level d = (stateOn [[false]] []).level d) ∧
    exec (.not (pin 0)) driven = .next (driven.settle (.not (pin 0)) (Bus.one true)) := ⟨by decide +kernel, rfl⟩

/-- A netlist of two instances on two ports, the second instance behind the first. -/
def twoGates : Netlist :=
  ⟨[⟨"a", 1⟩, ⟨"b", 1⟩], [.nand (pin 0) (pin 1), .not (.cell 0 0)], [⟨"n", [.cell 0 0]⟩, ⟨"z", [.cell 1 0]⟩]⟩

/-- Levels for its ports. -/
def levels (a b : Bit) : Ports Bit twoGates.inputWidths := ⟨[[a], [b]], rfl⟩

/-- It, evaluated in part for both inputs at `1`. -/
def halfway : State :=
  { State.load twoGates (levels true true) with
    settled := [⟨.nand (pin 0) (pin 1), Bus.one false⟩], pending := [encode (.not (.cell 0 0))] }

/-- Three uses of a block in a row, the first and the last with the same inputs (00_scope.md R16: no state). -/
theorem test_block_uses :
    (Block.uses ⟨twoGates, by decide +kernel⟩ () [levels true true, levels true false, levels true true]).2 =
      [some [[false], [true]], some [[true], [false]], some [[false], [true]]] := by rfl
theorem witness_TheBlockHoldsNoState : step (State.load twoGates (levels true true)) = .next halfway := by rfl
/-- A step of it. -/
theorem witness_WiringIsFixed : step (State.load twoGates (levels true true)) = .next halfway := by rfl
/-- A state with something settled that is right, and a step from it. -/
theorem witness_StepKeepsTheEvaluationCorrect : halfway.Settled ∧ ∃ t, step halfway = .next t :=
  ⟨⟨⟨⟨[[true], [true]], rfl⟩, rfl, rfl⟩, trivial⟩, _, rfl⟩
theorem witness_ReadyStatesNeverStop : (State.load twoGates (levels true false)).ready = true ∧ halfway.ready = true := by
  decide +kernel
theorem witness_NetlistsHaveAValue : twoGates.wellFormed = true ∧ (levels true true).lists = [[true], [true]] := by
  decide +kernel
theorem witness_TheMachineComputesTheNetlist :
    twoGates.wellFormed = true ∧ (levels true false).lists = [[true], [false]] := by decide +kernel
/-- A state of the same netlist, evaluated in part for other inputs. -/
theorem witness_OutputsForgetEarlierInputs :
    twoGates.wellFormed = true ∧ halfway.ports = twoGates.inputs ∧ halfway.wiring = twoGates.insts.map encode ∧
    halfway.outputs = twoGates.outputs ∧
    (⟨[[false], [true]], rfl⟩ : Ports Bit halfway.inputWidths).lists = (levels false true).lists :=
  ⟨by decide +kernel, rfl, rfl, rfl, rfl⟩
/-- A schedule in the wrong order, with a repetition and a number that no instance has. -/
theorem witness_NoScheduleGivesAnotherValue :
    evalCells id Op.bits (levels true true).lists twoGates.insts [] = some [[false], [true]] ∧
    (evalSchedule twoGates.insts (levels true true).lists [1, 0, 7, 0])[0]? = some (some [false]) := by decide +kernel

/-- Two instances side by side and one behind both. -/
def fork : Netlist := ⟨[⟨"a", 1⟩], [.not (pin 0), .nand (pin 0) (pin 0), .and (.cell 0 0) (.cell 1 0)], []⟩

/-- An order of `fork` other than the listed one. -/
theorem witness_EveryOrderThatRespectsTheWiresSettles :
    fork.wellFormed = true ∧ [[true]].map List.length = fork.inputWidths ∧ [1, 0, 2].Perm (List.range fork.insts.length) ∧
    RespectsWires fork.insts [1, 0, 2] := by
  refine ⟨by decide +kernel, by decide +kernel, by decide, fun done k rest i h hi port hp c j hd => ?_⟩
  rcases done with _ | ⟨x, _ | ⟨y, _ | ⟨z, done⟩⟩⟩
  all_goals simp at h
  · obtain ⟨rfl, -⟩ := h
    simp [fork] at hi; subst hi
    simp [Instr.args, pin] at hp
    subst hp; simp at hd
  · obtain ⟨rfl, rfl, -⟩ := h
    simp [fork] at hi; subst hi
    simp [Instr.args, pin] at hp
    subst hp; simp at hd
  · obtain ⟨rfl, rfl, rfl, -⟩ := h
    simp [fork] at hi; subst hi
    simp [Instr.args] at hp
    rcases hp with rfl | rfl <;> simp at hd <;> simp [hd]

theorem witness_RecipesComputeTheirOperations :
    recipe .halfAdder = some (Op.halfAdder.netlist
      [.xor (.port 0 0) (.port 1 0), .and (.port 0 0) (.port 1 0)] [.cell 0 0, .cell 1 0]) ∧
    (⟨[[true], [false]], rfl⟩ : Ports Bit Op.halfAdder.inputWidths).lists = [[true], [false]] := by decide +kernel
theorem witness_TheDerivationChainComputesEveryOperation :
    (⟨[word 0xFFFF, word 0x0001], rfl⟩ : Ports Bit Op.add16.inputWidths).lists = [word 0xFFFF, word 0x0001] := rfl
theorem witness_ExpansionsFollowTheDerivationChain :
    expansion .and = some (Op.and.netlist [.nand (pin 0) (pin 1), .nand (.cell 0 0) (.cell 0 0)] [.cell 1 0]) ∧
    (⟨[[some 0], [some 3]], rfl⟩ : Ports (Option Nat) Op.and.inputWidths).lists = [[some 0], [some 3]] := by
  decide +kernel
theorem witness_NoSettlingBoundExceedsTheAdders : depth .mux = some 5 ∧ depth .nand = some 1 := by decide +kernel
/-- A path of both instances. -/
theorem witness_NetlistBoundsCountEveryPath :
    twoGates.settlingDepth = some 2 ∧ PathOfInstances twoGates.insts [0, 1] :=
  ⟨by decide +kernel, ⟨.not (.cell 0 0), rfl, [.cell 0 0], List.mem_singleton.2 rfl, 0, List.mem_singleton.2 rfl⟩, (by decide : 1 < 2)⟩
theorem witness_CarryChainGrowsBySixCellsAStage : 0 < 16 ∧ 15 < 16 := by decide
/-- One argument too few, one of another width, and the right ones. -/
theorem witness_WrongShapesAreRefusedAtConstruction :
    [[pin 0]].length ≠ Op.and.inputWidths.length ∧ [port 16 0, port 1 1].length = Op.and16.inputWidths.length ∧
    [port 16 0, port 1 1].map List.length ≠ Op.and16.inputWidths ∧
    [port 16 0, port 16 1].map List.length = Op.and16.inputWidths := by decide +kernel
/-- A text that passes the checks and the netlist it denotes. -/
theorem witness_CheckedTextsDenoteNetlists :
    elaborate (textWith [lineOf "z" "not" [.bit "s" 15]]) =
      .ok ⟨[⟨"a", 1⟩, ⟨"b", 1⟩, ⟨"s", 16⟩], [.not (.port 2 15)], [⟨"z", [.cell 0 0]⟩]⟩ := by rfl
/-- The same with values for its ports, and a text that fails a check. -/
theorem witness_TextMeaningIsNetlistValue :
    elaborate (textWith [lineOf "z" "not" [.bit "s" 15]]) =
      .ok ⟨[⟨"a", 1⟩, ⟨"b", 1⟩, ⟨"s", 16⟩], [.not (.port 2 15)], [⟨"z", [.cell 0 0]⟩]⟩ ∧
    (⟨[[true], [true], word 0x8000], rfl⟩ :
        Ports Bit (textWith [lineOf "z" "not" [.bit "s" 15]]).inputWidths).lists =
      (⟨[[true], [true], word 0x8000], rfl⟩ : Ports Bit (Netlist.inputWidths
        ⟨[⟨"a", 1⟩, ⟨"b", 1⟩, ⟨"s", 16⟩], [.not (.port 2 15)], [⟨"z", [.cell 0 0]⟩]⟩)).lists ∧
    elaborate (textWith [lineOf "z" "and" [.whole "a"]]) = .error .arity := ⟨rfl, rfl, rfl⟩

end Sys2Proof.Tests
end

