-- ==== Sys2Proof/Proofs/L0Nand.lean ====
section
/-! Layer L0: the truth table of `nand` (40_l0_nand.md). -/

namespace Sys2Proof

/-- R75, the four rows of the table in the rule's words: `1` unless both inputs are `1`. -/
theorem gate_nand_eq_ite (x y : Bit) : Gate.nand x y = if x = true ∧ y = true then false else true := by
  cases x <;> cases y <;> rfl

/-- With both inputs on one wire `nand` is the inverter, which is how R81 builds `not`. -/
theorem gate_nand_self (x : Bit) : Gate.nand x x = !x := gate_not x

open Machine

/-- Settles O1: the meaning of an instance on driven pins (`exec_nand`), with the gate's truth table as its output. -/
theorem nandOperation : Obligations.NandOperation := by
  refine ⟨fun s a b x y ha hb => ?_, gate_nand_self⟩
  rw [exec_nand ha hb, gate_nand_eq_ite]

end Sys2Proof
end

