-- ==== Sys2Proof/Proofs/L1ScalarGates.lean ====
section
/-! Layer L1: the contracts of the scalar gates (41_l1_scalar_gates.md), and their instances on driven pins. -/

namespace Sys2Proof

/-- R82, the contract in the rule's words: `1` exactly when both inputs are `1`. -/
theorem gate_and_eq_ite (x y : Bit) : Gate.and x y = if x = true ∧ y = true then true else false := by
  cases x <;> cases y <;> rfl

/-- R83, the contract in the rule's words: `0` exactly when both inputs are `0`. -/
theorem gate_or_eq_ite (x y : Bit) : Gate.or x y = if x = false ∧ y = false then false else true := by
  cases x <;> cases y <;> rfl

/-- R84, the contract in the rule's words: `1` exactly when both inputs are `0`. -/
theorem gate_nor_eq_ite (x y : Bit) : Gate.nor x y = if x = false ∧ y = false then true else false := by
  cases x <;> cases y <;> rfl

/-- R85, the contract in the rule's words: `1` exactly when the inputs differ. -/
theorem gate_xor_eq_ite (x y : Bit) : Gate.xor x y = if x = y then false else true := by
  cases x <;> cases y <;> rfl

/-- R81, corner case: inverting twice gives the input back. -/
theorem gate_not_not (x : Bit) : Gate.not (Gate.not x) = x := by
  rw [gate_not, gate_not, Bool.not_not]

/-- R86, corner case: equal data inputs come through for either select. -/
theorem gate_mux_self (x k : Bit) : Gate.mux x x k = x := by
  rw [gate_mux, ite_self]

/-- R87, the contract in the rule's words: `x` on the branch that the select names, `0` on the other. -/
theorem gate_dmux_eq_ite (v k : Bit) :
    Gate.dmux v k = if k = true then Bus.lit [false, v] else Bus.lit [v, false] := by
  refine bits_inj ?_
  rw [gate_dmux_bits]
  cases k
  · exact (bits_lit [v, false]).symm
  · exact (bits_lit [false, v]).symm

open Machine

/-- Settles O2: each instance completes with its gate's value (`exec_not` to `exec_xor`), which is the contract's; the recipes
are the gates' definitions. -/
theorem scalarGateOperations : Obligations.ScalarGateOperations := by
  refine ⟨fun s a x ha => ?_, fun s a b x y ha hb => ⟨?_, ?_, ?_, ?_⟩, fun _ _ => ⟨rfl, rfl, rfl, rfl, rfl⟩,
    gate_not_not⟩
  · rw [exec_not ha, gate_not]
  · rw [exec_and ha hb, gate_and_eq_ite]
  · rw [exec_or ha hb, gate_or_eq_ite]
  · rw [exec_nor ha hb, gate_nor_eq_ite]
  · rw [exec_xor ha hb, gate_xor_eq_ite]

/-- Settles O3: the instance completes with the gate's value (`exec_mux`), which is the chosen input (`gate_mux`). -/
theorem muxOperation : Obligations.MuxOperation := by
  refine ⟨fun s a b sel x y k ha hb hsel => ?_, fun _ _ _ => rfl, gate_mux_self⟩
  rw [exec_mux ha hb hsel, gate_mux]

/-- Settles O4: the instance completes with the gate's value (`exec_dmux`), which is the routing; the branches are the Bits of
the literal that defines the gate. -/
theorem dmuxOperation : Obligations.DmuxOperation := by
  refine ⟨fun s x sel v k hx hsel => ?_, fun v k => bits_lit [Gate.and (Gate.not k) v, Gate.and k v]⟩
  rw [exec_dmux hx hsel, gate_dmux_eq_ite]
  rfl

end Sys2Proof
end

