-- ==== Sys2Proof/Proofs/L2WideAndFanout.lean ====
section
/-! Layer L2: the lifts, `or8way` and `mux4way16` (42_l2_wide_and_fanout.md). -/

namespace Sys2Proof

/-- R11: inside the width, the Bit at an index of a bus that was built is the one put there. -/
theorem at_build_of_lt {n i : Nat} {f : Nat → Bit} (hi : i < n) : Bus.at (Bus.build n f) i = f i := by
  rw [at_build, decide_eq_true hi, Bool.true_and]

/-- R12: the word `0xFFFF` has `1` at every index. -/
theorem encodeNat_ffff : encodeNat 16 0xFFFF = BitVec.allOnes 16 :=
  encodeNat_eq_ofNat 16 0xFFFF

/-- R104, corner case: equal data words come through for either select. -/
theorem gate_mux16_self (v : Bits16) (k : Bit) : Gate.mux16 v v k = v := by
  rw [gate_mux16, ite_self]

/-- The `0` row of R83's table, the form in which a tree of `or` is read from its root. -/
theorem gate_or_eq_false_iff (x y : Bit) : Gate.or x y = false ↔ x = false ∧ y = false := by
  rw [gate_or, Bool.or_eq_false_iff]

/-- R105, the contract: each `or` of the tree passes on that both its inputs are `0`, so the root is `0` exactly when all
eight leaves are. -/
theorem gate_or8way_eq_false_iff (v : Bits8) : Gate.or8way v = false ↔ ∀ i, i < 8 → Bus.at v i = false := by
  simp only [Gate.or8way, gate_or_eq_false_iff, Nat.forall_lt_succ_right, Nat.not_lt_zero, false_imp_iff, implies_true,
    true_and, and_assoc]

/-- R106, the contract: `sel[0]` at the leaves leaves one input of each pair and `sel[1]` at the root picks the pair, which
is the input number `sel[0] + 2*sel[1]`. -/
theorem gate_mux4way16_getElem? (a b c d : Bits16) (k : Bits2) :
    [a, b, c, d][(Bus.at k 0).toNat + 2 * (Bus.at k 1).toNat]? = some (Gate.mux4way16 a b c d k) := by
  simp only [Gate.mux4way16, gate_mux16]
  cases Bus.at k 0 <;> cases Bus.at k 1 <;> rfl

/-- R13, R100: sixteen lanes of one operation are sixteen instances of it and nothing else. -/
theorem lanes_ops (op sub : Op) (lane : Nat → Instr) (h : ∀ i, (lane i).op = sub) :
    (op.lanes lane).insts.map Instr.op = List.replicate 16 sub := by
  simp [Op.lanes, Op.netlist, Function.comp_def, h]

open Machine

/-- Settles O5: a lane of the output is what the lift puts there (`at_build_of_lt`), and each recipe is its sixteen lanes
(`lanes_ops`). -/
theorem liftsAreLaneWise : Obligations.LiftsAreLaneWise := by
  refine ⟨fun a b k i hi => ⟨at_build_of_lt hi, at_build_of_lt hi, at_build_of_lt hi, at_build_of_lt hi⟩, fun p hp => ?_⟩
  fin_cases hp
  all_goals exact congrArg some (lanes_ops _ _ _ fun _ => rfl)

/-- R101 to R104, the corner cases of one word: the laws of core's bitwise operations at `0x0000` and `0xFFFF`. -/
theorem lift_corner_cases (v : Bits16) :
    Gate.not16 (Gate.not16 v) = v ∧
    Gate.and16 v zero16 = zero16 ∧ Gate.and16 v (encodeNat 16 0xFFFF) = v ∧ Gate.and16 v v = v ∧
    Gate.or16 v zero16 = v ∧ Gate.or16 v (encodeNat 16 0xFFFF) = encodeNat 16 0xFFFF ∧ Gate.or16 v v = v ∧
    ∀ k, Gate.mux16 v v k = v := by
  simp only [gate_not16, gate_and16, gate_or16, zero16_eq, encodeNat_ffff]
  exact ⟨BitVec.not_not, BitVec.and_zero, BitVec.and_allOnes, BitVec.and_self, BitVec.or_zero, BitVec.or_allOnes,
    BitVec.or_self, gate_mux16_self v⟩

/-- Settles O6: each instance completes with its gate's value (`exec_not16` to `exec_mux16`), which is core's bitwise
operation (`gate_not16` to `gate_mux16`); so the corner cases are core's laws. -/
theorem laneWiseOperations : Obligations.LaneWiseOperations := by
  refine ⟨fun s x v hx => ?_, fun s a b v w ha hb => ⟨?_, ?_⟩, fun s a b sel v w k ha hb hsel => ?_,
    lift_corner_cases, fun v w => ⟨?_, ?_⟩, ?_, ?_⟩
  · rw [exec_not16 hx, gate_not16]
  · rw [exec_and16 ha hb, gate_and16]
  · rw [exec_or16 ha hb, gate_or16]
  · rw [exec_mux16 ha hb hsel, gate_mux16]
  · rw [gate_and16, gate_and16, BitVec.and_comm]
  · rw [gate_or16, gate_or16, BitVec.or_comm]
  · rw [gate_not16, zero16_eq, encodeNat_ffff, BitVec.not_zero]
  · rw [gate_not16, zero16_eq, encodeNat_ffff, BitVec.not_allOnes]

/-- Settles O7: the instance completes with the gate's value (`exec_or8way`), which meets the contract; the tree is the gate's
definition. -/
theorem or8wayOperation : Obligations.Or8wayOperation :=
  ⟨fun _ _ v hx => ⟨Gate.or8way v, exec_or8way hx, gate_or8way_eq_false_iff v⟩, fun _ => rfl⟩

/-- Settles O8: the instance completes with the gate's value (`exec_mux4way16`), which is the selected input; the tree is the
gate's definition. -/
theorem mux4way16Operation : Obligations.Mux4way16Operation :=
  ⟨fun _ _ _ _ _ _ va vb vc vd k ha hb hc hd hsel =>
    ⟨Gate.mux4way16 va vb vc vd k, gate_mux4way16_getElem? va vb vc vd k, exec_mux4way16 ha hb hc hd hsel⟩,
    fun _ _ _ _ _ => rfl⟩

end Sys2Proof
end

