-- ==== Sys2Proof/Proofs/L3Arithmetic.lean ====
section
/-! Layer L3: the adders (43_l3_arithmetic.md). -/

namespace Sys2Proof

/-- R24: a two-bit result is the literal of its two Bits. -/
theorem bits2_eq_lit (v : Bits2) : v = Bus.lit [Bus.at v 0, Bus.at v 1] :=
  bits_inj (bits_lit [Bus.at v 0, Bus.at v 1]).symm

/-- R123, the contract: sum and carry together count the ones of the inputs. -/
theorem gate_halfAdder_count (x y : Bit) :
    (Gate.xor x y).toNat + 2 * (Gate.and x y).toNat = x.toNat + y.toNat := by
  cases x <;> cases y <;> rfl

/-- R123, corner case: a sum and a carry of `1` would count three ones, and there are only two inputs. -/
theorem gate_halfAdder_not_both (x y : Bit) : ¬(Gate.xor x y = true ∧ Gate.and x y = true) := by
  rintro ⟨hsum, hcarry⟩
  have count := gate_halfAdder_count x y
  rw [hsum, hcarry, Bool.toNat_true] at count
  have hx := Bool.toNat_le x
  have hy := Bool.toNat_le y
  omega

/-- R123, corner case: the order of the inputs does not matter. -/
theorem gate_halfAdder_comm (x y : Bit) : Gate.halfAdder x y = Gate.halfAdder y x := by
  cases x <;> cases y <;> rfl

/-- R124, the contract: sum and carry together count the ones of the inputs. -/
theorem gate_fullAdder_count (x y z : Bit) :
    (Gate.xor (Gate.xor x y) z).toNat +
      2 * (Gate.or (Gate.or (Gate.and x y) (Gate.and y z)) (Gate.and z x)).toNat =
    x.toNat + y.toNat + z.toNat := by
  cases x <;> cases y <;> cases z <;> rfl

/-- R124, corner case: without a carry in, it has the value of `half_adder`. -/
theorem gate_fullAdder_false (x y : Bit) : Gate.fullAdder x y false = Gate.halfAdder x y := by
  cases x <;> cases y <;> rfl

/-- R124: the swap of the first two inputs; with `gate_fullAdder_right_comm` it generates every order. -/
theorem gate_fullAdder_left_comm (x y z : Bit) : Gate.fullAdder x y z = Gate.fullAdder y x z := by
  cases x <;> cases y <;> cases z <;> rfl

/-- R124: the swap of the last two inputs. -/
theorem gate_fullAdder_right_comm (x y z : Bit) : Gate.fullAdder x y z = Gate.fullAdder x z y := by
  cases x <;> cases y <;> cases z <;> rfl

/-- R122, R125: a later stage leaves the sum bits below it as they are, so the Bit at `i` is the sum of stage `i`. -/
theorem at_ripple_sum (v w : Bits16) {i n : Nat} (hi : i < n) :
    Bus.at (Gate.ripple v w n).1 i =
      Bus.at (Gate.fullAdder (Bus.at v i) (Bus.at w i) (Gate.ripple v w i).2) 0 := by
  induction n with
  | zero => exact absurd hi i.not_lt_zero
  | succ n ih =>
    rw [Gate.ripple, at_cons]
    split
    case isTrue h => rw [h]
    case isFalse h => exact ih (Nat.lt_of_le_of_ne (Nat.le_of_lt_succ hi) h)

/-- R125: stage `i` takes the carry of the stages below it, and gives the Bit `i` of the result and the next carry. -/
theorem ripple_stage (v w : Bits16) {i : Nat} (hi : i < 16) :
    Gate.fullAdder (Bus.at v i) (Bus.at w i) (Gate.ripple v w i).2 =
      Bus.lit [Bus.at (Gate.add16 v w) i, (Gate.ripple v w (i + 1)).2] := by
  rw [Gate.add16, at_ripple_sum v w hi]
  exact bits2_eq_lit _

/-- R125, the contract. -/
theorem decodeNat_gate_add16 (v w : Bits16) :
    decodeNat (Gate.add16 v w) = (decodeNat v + decodeNat w) % 65536 := by
  simp only [decodeNat_eq_toNat, gate_add16_toNat]

/-- R125, corner case: `0x0000` is neutral. -/
theorem gate_add16_zero16 (v : Bits16) : Gate.add16 v zero16 = v := by
  rw [gate_add16, zero16_eq, BitVec.add_zero]

/-- R125, corner case: the order of the words does not matter. -/
theorem gate_add16_comm (v w : Bits16) : Gate.add16 v w = Gate.add16 w v := by
  rw [gate_add16, gate_add16, BitVec.add_comm]

/-- R125: the sum of two encoded numbers is the encoding of their sum, of which the word keeps the low sixteen Bits. -/
theorem gate_add16_encodeNat (u v : Nat) :
    Gate.add16 (encodeNat 16 u) (encodeNat 16 v) = encodeNat 16 (u + v) := by
  simp only [gate_add16, encodeNat_eq_ofNat, BitVec.ofNat_add]

/-- R26: the constant of `inc16` is the encoding of `1`. -/
theorem one16_eq_encodeNat : one16 = encodeNat 16 1 := by
  rw [one16_eq, encodeNat_eq_ofNat]

/-- R26: the constant of `inc16` stands for the number `1`. -/
theorem decodeNat_one16 : decodeNat one16 = 1 := by
  rw [decodeNat_eq_toNat, one16_eq]
  rfl

/-- R126, the contract: adding the word that stands for `1`. -/
theorem decodeNat_gate_inc16 (v : Bits16) : decodeNat (Gate.inc16 v) = (decodeNat v + 1) % 65536 := by
  rw [Gate.inc16, decodeNat_gate_add16, decodeNat_one16]

/-- R126, corner case: the increment of `0x0000` is the constant itself. -/
theorem gate_inc16_zero16 : Gate.inc16 zero16 = one16 := by
  rw [Gate.inc16, gate_add16_comm, gate_add16_zero16]

/-- R126 on an encoded number. -/
theorem gate_inc16_encodeNat (u : Nat) : Gate.inc16 (encodeNat 16 u) = encodeNat 16 (u + 1) := by
  rw [Gate.inc16, one16_eq_encodeNat, gate_add16_encodeNat]

/-- R42: a number that needs a seventeenth Bit loses it; the encoding of `0x10000` is that of `0`. -/
theorem encodeNat_add_65536 (u : Nat) : encodeNat 16 (u + 65536) = encodeNat 16 u := by
  rw [encodeNat_eq_ofNat, encodeNat_eq_ofNat, BitVec.ofNat_add]
  exact BitVec.add_zero _

open Machine

/-- Settles O11: the instance completes with the gate's value (`exec_halfAdder`), the recipe is the gate's definition, and the
pair counts the ones. -/
theorem halfAdderOperation : Obligations.HalfAdderOperation :=
  ⟨fun _ _ _ x y ha hb =>
    ⟨Gate.xor x y, Gate.and x y, exec_halfAdder ha hb, rfl, rfl, gate_halfAdder_count x y, gate_halfAdder_not_both x y⟩,
    gate_halfAdder_comm⟩

/-- Settles O12: the instance completes with the gate's value (`exec_fullAdder`), the recipe is the gate's definition, and the
pair counts the ones. -/
theorem fullAdderOperation : Obligations.FullAdderOperation :=
  ⟨fun _ _ _ _ x y z ha hb hc =>
    ⟨Gate.xor (Gate.xor x y) z, Gate.or (Gate.or (Gate.and x y) (Gate.and y z)) (Gate.and z x),
      exec_fullAdder ha hb hc, rfl, rfl, gate_fullAdder_count x y z⟩,
    fun x y z => ⟨gate_fullAdder_false x y, gate_fullAdder_left_comm x y z, gate_fullAdder_right_comm x y z⟩⟩

/-- Settles O13: the instance completes with the gate's value (`exec_add16`), the carries are those of the ripple
(`ripple_stage`), and the corner cases are sums of encoded numbers that wrap or do not. -/
theorem add16Operation : Obligations.Add16Operation := by
  refine ⟨fun s a b v w ha hb => ?_, fun v w => ⟨gate_add16_zero16 v, gate_add16_comm v w, ?_⟩, ?_, ?_, ?_, ?_⟩
  · exact ⟨Gate.add16 v w, fun i => (Gate.ripple v w i).2, exec_add16 ha hb, rfl, fun i hi => ripple_stage v w hi,
      decodeNat_gate_add16 v w⟩
  · rw [decodeNat_gate_add16, two_mul]
  · exact (gate_add16_encodeNat 0x8000 0x8000).trans (encodeNat_add_65536 0x0000)
  · exact (gate_add16_encodeNat 0xFFFF 0x0001).trans (encodeNat_add_65536 0x0000)
  · exact (gate_add16_encodeNat 0xFFFF 0xFFFF).trans (encodeNat_add_65536 0xFFFE)
  · exact gate_add16_encodeNat 0x7FFF 0x0001

/-- Settles O14: the instance completes with the gate's value (`exec_inc16`), which is by definition the sum with `one16`, the
encoding of `1`. -/
theorem inc16Operation : Obligations.Inc16Operation := by
  refine ⟨fun s a v ha => ⟨Gate.inc16 v, exec_inc16 ha, rfl, decodeNat_gate_inc16 v⟩, ?_, ?_, ?_, gate_inc16_zero16⟩
  · exact (gate_inc16_encodeNat 0xFFFF).trans (encodeNat_add_65536 0x0000)
  · exact gate_inc16_encodeNat 0x7FFF
  · exact gate_inc16_encodeNat 0x00FF

end Sys2Proof
end

