-- ==== Sys2Proof/Proofs/L44Laws.lean ====
section
/-! The laws of values: the Boolean laws, and addition and increment on encoded numbers (44_laws_and_structure.md). -/

namespace Sys2Proof

/-- R42, R43: a bus of width `n` holds a number modulo `2^n`. -/
theorem decodeNat_encodeNat (n u : Nat) : decodeNat (encodeNat n u) = u % 2 ^ n := by
  rw [decodeNat_eq_toNat, encodeNat_eq_ofNat, BitVec.toNat_ofNat]

/-- R42: the encoding of a number depends on its residue modulo `2^n` alone. -/
theorem encodeNat_mod (n u : Nat) : encodeNat n (u % 2 ^ n) = encodeNat n u := by
  rw [encodeNat_eq_ofNat, encodeNat_eq_ofNat]
  exact BitVec.eq_of_toNat_eq (Nat.mod_mod u (2 ^ n))

/-- R135: the sum of two encoded numbers stands for their sum modulo 65536. -/
theorem decodeNat_gate_add16_encodeNat (u v : Nat) :
    decodeNat (Gate.add16 (encodeNat 16 u) (encodeNat 16 v)) = (u + v) % 65536 := by
  rw [gate_add16_encodeNat]
  exact decodeNat_encodeNat 16 (u + v)

/-- R140: the order of the inputs of `and` does not matter. -/
theorem gate_and_comm (x y : Bit) : Gate.and x y = Gate.and y x := by
  rw [gate_and, gate_and, Bool.and_comm]

/-- R140: the order of the inputs of `or` does not matter. -/
theorem gate_or_comm (x y : Bit) : Gate.or x y = Gate.or y x := by
  rw [gate_or, gate_or, Bool.or_comm]

/-- R140: the order of the inputs of `xor` does not matter. -/
theorem gate_xor_comm (x y : Bit) : Gate.xor x y = Gate.xor y x := by
  rw [gate_xor, gate_xor, bne_comm]

/-- R140, De Morgan for `and`. -/
theorem gate_not_and (x y : Bit) : Gate.not (Gate.and x y) = Gate.or (Gate.not x) (Gate.not y) := by
  simp only [gate_not, gate_and, gate_or, Bool.not_and]

/-- R140, De Morgan for `or`. -/
theorem gate_not_or (x y : Bit) : Gate.not (Gate.or x y) = Gate.and (Gate.not x) (Gate.not y) := by
  simp only [gate_not, gate_and, gate_or, Bool.not_or]

open Machine

/-- Settles O16: the sum of two encoded numbers is the encoding of their sum (`gate_add16_encodeNat`), of which a word keeps
the residue; an instance settles with that word alone (`exec_add16`). -/
theorem additionIsModulo65536 : Obligations.AdditionIsModulo65536 := by
  refine ⟨fun u v hu hv => ⟨decodeNat_gate_add16_encodeNat u v, fun wrap => ?_⟩, fun s a b u v _ _ ha hb => ?_⟩
  · rw [decodeNat_gate_add16_encodeNat]
    omega
  · have sum_word : encodeNat 16 ((u + v) % 65536) = encodeNat 16 (u + v) := encodeNat_mod 16 (u + v)
    rw [exec_add16 ha hb, gate_add16_encodeNat, sum_word]

/-- Settles O17: the increment of an encoded number is the encoding of its successor (`gate_inc16_encodeNat`), and the
encoding of 65536 is that of `0`. -/
theorem incrementIsModulo65536 : Obligations.IncrementIsModulo65536 := by
  refine ⟨fun u _ => ?_, ?_⟩
  · rw [gate_inc16_encodeNat]
    exact decodeNat_encodeNat 16 (u + 1)
  · exact (gate_inc16_encodeNat 65535).trans (encodeNat_add_65536 0)

/-- Settles O20: the scalar laws are those of the Boolean connectives that the gates compute; the pointwise laws are the first
part of `liftsAreLaneWise`. -/
theorem booleanLaws : Obligations.BooleanLaws :=
  ⟨fun a b => ⟨gate_not_not a, gate_and_comm a b, gate_or_comm a b, gate_xor_comm a b, rfl, gate_not_and a b,
    gate_not_or a b⟩, liftsAreLaneWise.1⟩

end Sys2Proof
end

