-- ==== Sys2Proof/Proofs/L60Exceptions.lean ====
section
/-! No operation can fail: every instance completes on driven pins, and there is no fault to raise (60_exceptions.md). -/

namespace Sys2Proof.Machine

variable {s : State}

/-- A port of one pin is driven exactly where its operand reads as a Bit. -/
theorem driven_pin_iff {d : Driver} : (∀ e ∈ [d], (s.level e).isSome) ↔ ∃ v, s.bit d = some v := by
  rw [List.forall_mem_singleton, Option.isSome_iff_exists, State.bit]

/-- A port of `n` pins is driven exactly where its operand reads as a bus. -/
theorem driven_pins_iff {n : Nat} {p : Pins n} : (∀ d ∈ p.drivers, (s.level d).isSome) ↔ ∃ v, s.bus p = some v := by
  rw [← bus_isSome, Option.isSome_iff_exists]

/-- R160: an instance whose pins all carry a level completes. Its driven ports give its operands values, one by one
(`driven_pin_iff`, `driven_pins_iff`), and on operands with values its meaning settles. -/
theorem exec_completes (i : Instr) (driven : ∀ port ∈ i.args, ∀ d ∈ port, (s.level d).isSome) :
    ∃ out, exec i s = .next (s.settle i out) := by
  cases i <;> simp only [Instr.args, List.forall_mem_cons (α := List Driver), driven_pin_iff, driven_pins_iff] at driven
  case nand => obtain ⟨⟨_, ha⟩, ⟨_, hb⟩, -⟩ := driven; exact ⟨_, exec_nand ha hb⟩
  case not => obtain ⟨⟨_, ha⟩, -⟩ := driven; exact ⟨_, exec_not ha⟩
  case and => obtain ⟨⟨_, ha⟩, ⟨_, hb⟩, -⟩ := driven; exact ⟨_, exec_and ha hb⟩
  case or => obtain ⟨⟨_, ha⟩, ⟨_, hb⟩, -⟩ := driven; exact ⟨_, exec_or ha hb⟩
  case nor => obtain ⟨⟨_, ha⟩, ⟨_, hb⟩, -⟩ := driven; exact ⟨_, exec_nor ha hb⟩
  case xor => obtain ⟨⟨_, ha⟩, ⟨_, hb⟩, -⟩ := driven; exact ⟨_, exec_xor ha hb⟩
  case mux => obtain ⟨⟨_, ha⟩, ⟨_, hb⟩, ⟨_, hsel⟩, -⟩ := driven; exact ⟨_, exec_mux ha hb hsel⟩
  case dmux => obtain ⟨⟨_, hx⟩, ⟨_, hsel⟩, -⟩ := driven; exact ⟨_, exec_dmux hx hsel⟩
  case not16 => obtain ⟨⟨_, hx⟩, -⟩ := driven; exact ⟨_, exec_not16 hx⟩
  case and16 => obtain ⟨⟨_, ha⟩, ⟨_, hb⟩, -⟩ := driven; exact ⟨_, exec_and16 ha hb⟩
  case or16 => obtain ⟨⟨_, ha⟩, ⟨_, hb⟩, -⟩ := driven; exact ⟨_, exec_or16 ha hb⟩
  case mux16 => obtain ⟨⟨_, ha⟩, ⟨_, hb⟩, ⟨_, hsel⟩, -⟩ := driven; exact ⟨_, exec_mux16 ha hb hsel⟩
  case or8way => obtain ⟨⟨_, hx⟩, -⟩ := driven; exact ⟨_, exec_or8way hx⟩
  case mux4way16 =>
    obtain ⟨⟨_, ha⟩, ⟨_, hb⟩, ⟨_, hc⟩, ⟨_, hd⟩, ⟨_, hsel⟩, -⟩ := driven
    exact ⟨_, exec_mux4way16 ha hb hc hd hsel⟩
  case mux8way16 =>
    obtain ⟨⟨_, ha⟩, ⟨_, hb⟩, ⟨_, hc⟩, ⟨_, hd⟩, ⟨_, he⟩, ⟨_, hf⟩, ⟨_, hg⟩, ⟨_, hh⟩, ⟨_, hsel⟩, -⟩ := driven
    exact ⟨_, exec_mux8way16 ha hb hc hd he hf hg hh hsel⟩
  case dmux4way => obtain ⟨⟨_, hx⟩, ⟨_, hsel⟩, -⟩ := driven; exact ⟨_, exec_dmux4way hx hsel⟩
  case dmux8way => obtain ⟨⟨_, hx⟩, ⟨_, hsel⟩, -⟩ := driven; exact ⟨_, exec_dmux8way hx hsel⟩
  case halfAdder => obtain ⟨⟨_, ha⟩, ⟨_, hb⟩, -⟩ := driven; exact ⟨_, exec_halfAdder ha hb⟩
  case fullAdder => obtain ⟨⟨_, ha⟩, ⟨_, hb⟩, ⟨_, hc⟩, -⟩ := driven; exact ⟨_, exec_fullAdder ha hb hc⟩
  case add16 => obtain ⟨⟨_, ha⟩, ⟨_, hb⟩, -⟩ := driven; exact ⟨_, exec_add16 ha hb⟩
  case inc16 => obtain ⟨⟨_, ha⟩, -⟩ := driven; exact ⟨_, exec_inc16 ha⟩

end Sys2Proof.Machine

namespace Sys2Proof

open Machine

/-- Settles O32: an instance on driven pins completes (`exec_completes`); R160 leaves the set of exceptions empty, so there is
no fault that an instance or a step could answer. -/
theorem noOperationFails : Obligations.NoOperationFails :=
  ⟨fun i _ driven => exec_completes i driven, fun _ _ => nofun, fun _ => nofun⟩

end Sys2Proof
end

