-- ==== Sys2Proof/Proofs/Decoding.lean ====
section
/-! The decoder and the encoder are inverse, and the decoder accepts exactly the 21 operations (30_encoding.md). -/

namespace Sys2Proof

/-- R28, R56: an instance is its operation with its arguments in positional order. -/
theorem ofPorts_ports (i : Instr) : Instr.ofPorts i.op i.ports = i := by
  cases i <;> rfl

/-- Settles O26: the word names the instance's operation (`decodeWord_encodeWord`), whose arguments make the instance again
(`ofPorts_ports`). -/
theorem decodeInvertsEncode : Obligations.DecodeInvertsEncode := fun i =>
  decode_eq_ok.2 ⟨i.op, decodeWord_encodeWord i.op, (ofPorts_ports i).symm⟩

/-- A raw instance is its word and its lists of drivers. -/
theorem rawInst_ext {r q : RawInst} (word : r.word = q.word) (lists : r.args.lists = q.args.lists) : r = q := by
  obtain ⟨w, p⟩ := r
  obtain ⟨w', p'⟩ := q
  obtain rfl : w = w' := word
  exact congrArg (RawInst.mk w) (ports_ext lists)

/-- R60: what a raw instance decodes to has the operation of its word and its arguments. -/
theorem word_and_args_of_decode {r : RawInst} {i : Instr} (h : decode r = .ok i) :
    decodeWord r.word = .ok i.op ∧ i.args = r.args.lists := by
  obtain ⟨op, hw, rfl⟩ := decode_eq_ok.1 h
  obtain ⟨hop, hargs⟩ := op_args_of_ofPorts op ⟨r.args.lists, by rw [r.args.widths, wordWidths, hw]⟩
  exact ⟨hw.trans (congrArg Except.ok hop.symm), hargs⟩

/-- Settles O27: what a raw instance decodes to has the operation of its word and its arguments (`word_and_args_of_decode`),
and an operation has one word (`encodeWord_of_decodeWord`). -/
theorem encodeInvertsDecode : Obligations.EncodeInvertsDecode := fun _ _ h =>
  have ⟨word, args⟩ := word_and_args_of_decode h
  rawInst_ext (encodeWord_of_decodeWord word) args

/-- R57, R68: the listing word of an operation is its index with three more Bits, all `0`. -/
theorem toNat_encodeWord (op : Op) : (encodeWord op).toNat = op.index.toNat :=
  BitVec.toNat_setWidth_of_le (by decide)

/-- R60: a word of 21 or more names no operation. -/
theorem decodeWord_of_ge : ∀ w : BitVec 8, 21 ≤ w.toNat → decodeWord w = .error (.noSuchOperation w) := by
  decide +kernel

/-- R57: a word below 21 names an operation. -/
theorem decodeWord_of_lt : ∀ w : BitVec 8, w.toNat < 21 → ∃ op ∈ Op.all, decodeWord w = .ok op := by
  decide +kernel

/-- `decode` answers where the word names an operation. -/
theorem decode_isOk_of_decodeWord {r : RawInst} {op : Op} (h : decodeWord r.word = .ok op) : ∃ i, decode r = .ok i :=
  ⟨_, decode_eq_ok.2 ⟨op, h, rfl⟩⟩

/-- R60: a raw instance whose word is 21 or more is refused by that word. -/
theorem decode_of_ge {r : RawInst} (h : 21 ≤ r.word.toNat) : decode r = .error (.noSuchOperation r.word) := by
  have hw := decodeWord_of_ge r.word h
  unfold decode
  split
  · rename_i op hop
    rw [hw] at hop
    cases hop
  · rename_i e he
    rw [hw] at he
    cases he
    rfl

/-- Settles O28: the decoder answers by the word alone (`decodeWord_of_ge`, `decodeWord_of_lt`), with an instance of the word's
operation and the raw instance's arguments (`word_and_args_of_decode`). -/
theorem decodeAcceptsExactlyTheOperations : Obligations.DecodeAcceptsExactlyTheOperations := by
  refine fun r => ⟨decode_of_ge, fun h => ?_⟩
  obtain ⟨op, -, names⟩ := decodeWord_of_lt r.word h
  obtain ⟨i, hi⟩ := decode_isOk_of_decodeWord names
  obtain ⟨word, args⟩ := word_and_args_of_decode hi
  refine ⟨i, hi, ?_, args⟩
  rw [← toNat_encodeWord, encodeWord_of_decodeWord word]

/-- R2: `Op.all` lists every operation. -/
theorem op_mem_all (op : Op) : op ∈ Op.all := by
  cases op <;> decide

/-- R57: the index of an operation names it. -/
theorem ofIndex?_index (op : Op) : Op.ofIndex? op.index = some op := by
  cases op <;> rfl

/-- R55: the name of an operation names it. -/
theorem ofName?_name (op : Op) : Op.ofName? op.name = some op := by
  cases op <;> decide +kernel

/-- R56: the widths that an operation's format gives are those of its ports. -/
theorem format_widths (op : Op) :
    op.format.inputWidths = op.inputWidths ∧ op.format.outputWidth = op.output.width := by
  cases op <;> exact ⟨rfl, rfl⟩

/-- Settles O24: the rows are the tables' own; each operation is found again by its index and by its name. -/
theorem operationTable : Obligations.OperationTable :=
  ⟨rfl, fun op => ⟨op_mem_all op, ofIndex?_index op, ofName?_name op, format_widths op⟩, by decide +kernel⟩

/-- Settles O25: seven words, decoded. -/
theorem tableWordsDecode : Obligations.TableWordsDecode :=
  ⟨rfl, rfl, rfl, rfl, rfl, rfl, rfl⟩

/-- R66 `arity`, `width`: a row of arguments with the widths of the operation's input ports has their number. -/
theorem length_of_widths {op : Op} {args : List (List Driver)} (h : args.map List.length = op.inputWidths) :
    args.length = op.inputs.length := by
  simpa [Op.inputWidths] using congrArg List.length h

/-- What `placeInst` makes of arguments of the right widths. -/
theorem placeInst_of_widths {op : Op} {made : List Instr} {args : List (List Driver)}
    (h : args.map List.length = op.inputWidths) :
    placeInst op made args =
      .ok (made ++ [Instr.ofPorts op ⟨args, h⟩], (List.range op.output.width).map (.cell made.length)) := by
  rw [placeInst, if_pos (length_of_widths h), dif_pos h]

/-- Settles O57: the two checks of `placeInst` in their order; past both of them the instance is the operation on the given
arguments (`op_args_of_ofPorts`). -/
theorem wrongShapesAreRefusedAtConstruction : Obligations.WrongShapesAreRefusedAtConstruction := by
  refine fun op made args => ⟨fun arity => ?_, fun arity width => ?_, fun h => ?_⟩
  · rw [placeInst, if_neg (by simpa [Op.inputWidths] using arity)]
  · rw [placeInst, if_pos (by simpa [Op.inputWidths] using arity), dif_neg width]
  · obtain ⟨hop, hargs⟩ := op_args_of_ofPorts op ⟨args, h⟩
    exact ⟨_, hop, hargs, placeInst_of_widths h⟩

open Machine

/-- Settles O29: the widths of a raw instance are those of the operation that its word names, and those of everything else are
in its type. -/
theorem widthsAreStructural : Obligations.WidthsAreStructural := by
  refine ⟨fun r op h => ?_, fun _ c _ => ⟨c.inst.args_widths, bits_length c.out⟩, fun s => s.inputs.widths,
    fun op v => bits_length (op.fn v)⟩
  have word : r.word = encodeWord op := BitVec.eq_of_toNat_eq (h.trans (toNat_encodeWord op).symm)
  rw [r.args.widths, word, wordWidths, decodeWord_encodeWord]

end Sys2Proof
end

