-- ==== Sys2Proof/Proofs/Meanings.lean ====
section
/-! Each meaning is its operation's total function of the levels at the pins (10_state.md R20), from which follows all that is
said about every instance at once: refusals, frame, purity, and what a step can do. -/

namespace Sys2Proof

/-- A port in front of a row: nothing is read where the port is not, else the rest of the row is read. -/
theorem readPorts_cons_none {δ α : Type} {f : δ → Option α} {w : Nat} {ws : List Nat} {l : List δ} {rest : List (List δ)}
    {h : (l :: rest).map List.length = w :: ws} (hl : readAll f l = none) : readPorts f ⟨l :: rest, h⟩ = none :=
  readPorts_eq_none.2 ⟨l, List.mem_cons_self, readAll_eq_none.1 hl⟩

theorem readPorts_cons_some {δ α : Type} {f : δ → Option α} {w : Nat} {ws : List Nat} {l : List δ} {rest : List (List δ)}
    {h : (l :: rest).map List.length = w :: ws} {as : List α} (hl : readAll f l = some as) (hw : as.length = w) :
    readPorts f ⟨l :: rest, h⟩ =
      (readPorts f ⟨rest, (List.cons.inj h).2⟩).map fun q => ⟨as :: q.lists, by simp [q.widths, hw]⟩ := by
  ext q
  simp only [readPorts_eq_some, readAll_cons, hl, Option.bind_some, Option.map_eq_some_iff]
  constructor
  · rintro ⟨ls, hr, hq⟩
    refine ⟨⟨ls, by rw [readAll_widths hr, (List.cons.inj h).2]⟩, hr, ports_ext hq⟩
  · rintro ⟨q, hr, rfl⟩
    exact ⟨q.lists, hr, rfl⟩

namespace Machine

variable {s : State} {β : Type}

/-! What is made of the values of a row of ports, taken operand by operand. -/

theorem map_readPorts_bit {ws : List Nat} (d : Driver) {rest : List (List Driver)} {f : Ports Bit (1 :: ws) → β}
    {h : ([d] :: rest).map List.length = 1 :: ws} :
    (readPorts s.level ⟨[d] :: rest, h⟩).map f =
      (s.bit d).bind fun v =>
        (readPorts s.level ⟨rest, (List.cons.inj h).2⟩).map fun q => f ⟨[v] :: q.lists, by simp [q.widths]⟩ := by
  have hd : readAll s.level [d] = (s.bit d).map fun v => [v] := by
    cases hb : s.bit d <;> simp_all [readAll, State.bit]
  cases hb : s.bit d with
  | none => rw [readPorts_cons_none (by rw [hd, hb]; rfl)]; rfl
  | some v => rw [readPorts_cons_some (as := [v]) (by rw [hd, hb]; rfl) rfl, Option.map_map]; rfl

theorem map_readPorts_bus {n : Nat} {ws : List Nat} (p : Pins n) {rest : List (List Driver)} {f : Ports Bit (n :: ws) → β}
    {h : (p.drivers :: rest).map List.length = n :: ws} :
    (readPorts s.level ⟨p.drivers :: rest, h⟩).map f =
      (s.bus p).bind fun v =>
        (readPorts s.level ⟨rest, (List.cons.inj h).2⟩).map fun q => f ⟨v.bits :: q.lists, by simp [q.widths]⟩ := by
  rcases bus_cases s p with ⟨v, hv, hd⟩ | ⟨hv, hd⟩
  · rw [readPorts_cons_some hd (bits_length v), hv, Option.map_map]; rfl
  · rw [readPorts_cons_none hd, hv]; rfl

/-! The rows of ports of the formats (30_encoding.md R56): what is made of their values is made where all are driven. -/

theorem map_readPorts_g1 (a : Driver) {f : Ports Bit [1] → β} {h : [[a]].map List.length = [1]} :
    (readPorts s.level ⟨[[a]], h⟩).map f = (s.bit a).bind fun va => some (f ⟨[[va]], rfl⟩) :=
  map_readPorts_bit a

theorem map_readPorts_g2 (a b : Driver) {f : Ports Bit [1, 1] → β} {h : [[a], [b]].map List.length = [1, 1]} :
    (readPorts s.level ⟨[[a], [b]], h⟩).map f =
      (s.bit a).bind fun va => (s.bit b).bind fun vb => some (f ⟨[[va], [vb]], rfl⟩) :=
  (map_readPorts_bit a).trans <| Option.bind_congr fun _ _ => map_readPorts_bit b

theorem map_readPorts_g3 (a b c : Driver) {f : Ports Bit [1, 1, 1] → β}
    {h : [[a], [b], [c]].map List.length = [1, 1, 1]} :
    (readPorts s.level ⟨[[a], [b], [c]], h⟩).map f =
      (s.bit a).bind fun va => (s.bit b).bind fun vb => (s.bit c).bind fun vc => some (f ⟨[[va], [vb], [vc]], rfl⟩) :=
  (map_readPorts_bit a).trans <| Option.bind_congr fun _ _ => (map_readPorts_bit b).trans <|
    Option.bind_congr fun _ _ => map_readPorts_bit c

theorem map_readPorts_w1 {n : Nat} (a : Pins n) {f : Ports Bit [n] → β} {h : [a.drivers].map List.length = [n]} :
    (readPorts s.level ⟨[a.drivers], h⟩).map f = (s.bus a).bind fun va => some (f ⟨[va.bits], by simp⟩) :=
  map_readPorts_bus a

theorem map_readPorts_w2 {m n : Nat} (a : Pins m) (b : Pins n) {f : Ports Bit [m, n] → β}
    {h : [a.drivers, b.drivers].map List.length = [m, n]} :
    (readPorts s.level ⟨[a.drivers, b.drivers], h⟩).map f =
      (s.bus a).bind fun va => (s.bus b).bind fun vb => some (f ⟨[va.bits, vb.bits], by simp⟩) :=
  (map_readPorts_bus a).trans <| Option.bind_congr fun _ _ => map_readPorts_bus b

theorem map_readPorts_wm {m n : Nat} (a : Pins m) (b : Pins n) (sel : Driver) {f : Ports Bit [m, n, 1] → β}
    {h : [a.drivers, b.drivers, [sel]].map List.length = [m, n, 1]} :
    (readPorts s.level ⟨[a.drivers, b.drivers, [sel]], h⟩).map f =
      (s.bus a).bind fun va => (s.bus b).bind fun vb => (s.bit sel).bind fun k =>
        some (f ⟨[va.bits, vb.bits, [k]], by simp⟩) :=
  (map_readPorts_bus a).trans <| Option.bind_congr fun _ _ => (map_readPorts_bus b).trans <|
    Option.bind_congr fun _ _ => map_readPorts_bit sel

theorem map_readPorts_x {n : Nat} (x : Driver) (sel : Pins n) {f : Ports Bit [1, n] → β}
    {h : [[x], sel.drivers].map List.length = [1, n]} :
    (readPorts s.level ⟨[[x], sel.drivers], h⟩).map f =
      (s.bit x).bind fun vx => (s.bus sel).bind fun k => some (f ⟨[[vx], k.bits], by simp⟩) :=
  (map_readPorts_bit x).trans <| Option.bind_congr fun _ _ => map_readPorts_bus sel

theorem map_readPorts_wm4 (a b c d : Pins 16) (sel : Pins 2) {f : Ports Bit [16, 16, 16, 16, 2] → β}
    {h : [a.drivers, b.drivers, c.drivers, d.drivers, sel.drivers].map List.length = [16, 16, 16, 16, 2]} :
    (readPorts s.level ⟨[a.drivers, b.drivers, c.drivers, d.drivers, sel.drivers], h⟩).map f =
      (s.bus a).bind fun va => (s.bus b).bind fun vb => (s.bus c).bind fun vc => (s.bus d).bind fun vd =>
        (s.bus sel).bind fun k => some (f ⟨[va.bits, vb.bits, vc.bits, vd.bits, k.bits], by simp⟩) :=
  (map_readPorts_bus a).trans <| Option.bind_congr fun _ _ => (map_readPorts_bus b).trans <|
    Option.bind_congr fun _ _ => (map_readPorts_bus c).trans <| Option.bind_congr fun _ _ => map_readPorts_w2 d sel

theorem map_readPorts_wm8 (a b c d e f g h : Pins 16) (sel : Pins 3)
    {fn : Ports Bit [16, 16, 16, 16, 16, 16, 16, 16, 3] → β}
    {hw : [a.drivers, b.drivers, c.drivers, d.drivers, e.drivers, f.drivers, g.drivers, h.drivers,
      sel.drivers].map List.length = [16, 16, 16, 16, 16, 16, 16, 16, 3]} :
    (readPorts s.level ⟨[a.drivers, b.drivers, c.drivers, d.drivers, e.drivers, f.drivers, g.drivers, h.drivers,
        sel.drivers], hw⟩).map fn =
      (s.bus a).bind fun va => (s.bus b).bind fun vb => (s.bus c).bind fun vc => (s.bus d).bind fun vd =>
        (s.bus e).bind fun ve => (s.bus f).bind fun vf => (s.bus g).bind fun vg => (s.bus h).bind fun vh =>
          (s.bus sel).bind fun k => some (fn ⟨[va.bits, vb.bits, vc.bits, vd.bits, ve.bits, vf.bits, vg.bits, vh.bits,
            k.bits], by simp⟩) :=
  (map_readPorts_bus a).trans <| Option.bind_congr fun _ _ => (map_readPorts_bus b).trans <|
    Option.bind_congr fun _ _ => (map_readPorts_bus c).trans <| Option.bind_congr fun _ _ =>
      (map_readPorts_bus d).trans <| Option.bind_congr fun _ _ => (map_readPorts_bus e).trans <|
        Option.bind_congr fun _ _ => (map_readPorts_bus f).trans <| Option.bind_congr fun _ _ =>
          (map_readPorts_bus g).trans <| Option.bind_congr fun _ _ => map_readPorts_w2 h sel

/-- R20: an instance's meaning is its operation's total function of the levels at its pins. Its operands are read one by one
(`map_readPorts_g1` to `map_readPorts_wm8`), and the function of their Bits is the gate (`fn_not16` to `fn_inc16`; for
operands of one Bit by definition). -/
theorem exec_eq_conclude (i : Instr) (s : State) : exec i s = s.conclude i ((readPorts s.level i.ports).map i.op.fn) := by
  cases i <;> refine congrArg (s.conclude _) (Eq.symm ?_)
  case not a => exact map_readPorts_g1 a
  case nand a b | and a b | or a b | nor a b | xor a b | dmux a b | halfAdder a b => all_goals exact map_readPorts_g2 a b
  case mux a b c | fullAdder a b c => all_goals exact map_readPorts_g3 a b c
  case not16 x => exact (map_readPorts_w1 x).trans (Option.bind_congr fun v _ => congrArg some (fn_not16 v _))
  case inc16 a => exact (map_readPorts_w1 a).trans (Option.bind_congr fun v _ => congrArg some (fn_inc16 v _))
  case or8way x => exact (map_readPorts_w1 x).trans (Option.bind_congr fun v _ => congrArg some (fn_or8way v _))
  case and16 a b =>
    exact (map_readPorts_w2 a b).trans <| Option.bind_congr fun v _ => Option.bind_congr fun w _ =>
      congrArg some (fn_and16 v w _)
  case or16 a b =>
    exact (map_readPorts_w2 a b).trans <| Option.bind_congr fun v _ => Option.bind_congr fun w _ =>
      congrArg some (fn_or16 v w _)
  case add16 a b =>
    exact (map_readPorts_w2 a b).trans <| Option.bind_congr fun v _ => Option.bind_congr fun w _ =>
      congrArg some (fn_add16 v w _)
  case mux16 a b sel =>
    exact (map_readPorts_wm a b sel).trans <| Option.bind_congr fun v _ => Option.bind_congr fun w _ =>
      Option.bind_congr fun k _ => congrArg some (fn_mux16 v w k _)
  case dmux4way x sel =>
    exact (map_readPorts_x x sel).trans <| Option.bind_congr fun v _ => Option.bind_congr fun k _ =>
      congrArg some (fn_dmux4way v k _)
  case dmux8way x sel =>
    exact (map_readPorts_x x sel).trans <| Option.bind_congr fun v _ => Option.bind_congr fun k _ =>
      congrArg some (fn_dmux8way v k _)
  case mux4way16 a b c d sel =>
    exact (map_readPorts_wm4 a b c d sel).trans <| Option.bind_congr fun va _ => Option.bind_congr fun vb _ =>
      Option.bind_congr fun vc _ => Option.bind_congr fun vd _ => Option.bind_congr fun k _ =>
        congrArg some (fn_mux4way16 va vb vc vd k _)
  case mux8way16 a b c d e f g h sel =>
    exact (map_readPorts_wm8 a b c d e f g h sel).trans <| Option.bind_congr fun va _ => Option.bind_congr fun vb _ =>
      Option.bind_congr fun vc _ => Option.bind_congr fun vd _ => Option.bind_congr fun ve _ =>
        Option.bind_congr fun vf _ => Option.bind_congr fun vg _ => Option.bind_congr fun vh _ =>
          Option.bind_congr fun k _ => congrArg some (fn_mux8way16 va vb vc vd ve vf vg vh k _)

/-- Settles O36. -/
theorem meaningsAgreeWithTheFunctions : Obligations.MeaningsAgreeWithTheFunctions := exec_eq_conclude

/-- R182: an instance answers a next state exactly where all its pins carry a level, and then its operation's function of
these levels has settled. -/
theorem exec_eq_next {i : Instr} {s t : State} :
    exec i s = .next t ↔ ∃ args, readPorts s.level i.ports = some args ∧ t = s.settle i (i.op.fn args) := by
  simp only [exec_eq_conclude, conclude_eq_next, Option.map_eq_some_iff]
  constructor
  · rintro ⟨_, ⟨args, hargs, rfl⟩, ht⟩
    exact ⟨args, hargs, ht⟩
  · rintro ⟨args, hargs, ht⟩
    exact ⟨_, ⟨args, hargs, rfl⟩, ht⟩

/-- R182: an instance is refused exactly where a pin carries no level. -/
theorem exec_eq_refused {i : Instr} {s : State} {r : Refusal} :
    exec i s = .refused r ↔ (∃ port ∈ i.args, ∃ d ∈ port, s.level d = none) ∧ r = .undrivenPin := by
  rw [exec_eq_conclude, conclude_eq_refused, Option.map_eq_none_iff, readPorts_eq_none]
  rfl

/-- Settles O33 (`exec_eq_refused`). -/
theorem undrivenPinsAreRefused : Obligations.UndrivenPinsAreRefused := fun _ _ =>
  ⟨fun undriven => exec_eq_refused.2 ⟨undriven, rfl⟩, fun _ h => (exec_eq_refused.1 h).symm⟩

/-- What has settled can be read off the state. -/
theorem settle_inj {s : State} {i : Instr} {out out' : Bus i.op.output.width} (h : s.settle i out = s.settle i out') :
    out = out' := by
  have cells := List.append_cancel_left (congrArg (fun t : State => t.settled) h)
  simpa using cells

/-- Settles O34: the levels at the pins are the arguments of the function that has settled (`exec_eq_next`). -/
theorem outputsDependOnlyOnThePins : Obligations.OutputsDependOnlyOnThePins := by
  intro i s t agree out h
  obtain ⟨args, hargs, hs⟩ := exec_eq_next.1 h
  rw [settle_inj hs]
  exact exec_eq_next.2 ⟨args, (readPorts_congr agree).symm.trans hargs, rfl⟩

/-- A level that was there is there after an instance has settled. -/
theorem level_settle {s : State} {i : Instr} {out : Bus i.op.output.width} {d : Driver} {b : Bit}
    (h : s.level d = some b) : (s.settle i out).level d = some b := by
  rw [State.level, settle_outs]
  exact read_append h

/-- The instance that has settled is read at its own number. -/
theorem level_settle_new (s : State) (i : Instr) (out : Bus i.op.output.width) (j : Nat) :
    (s.settle i out).level (.cell s.settled.length j) = out.bits[j]? := by
  simp [State.level, Driver.read, bitAt, State.outs]

/-- Settles O31: an instance that completes does nothing but settle (`exec_eq_next`). -/
theorem frameOfAnInstance : Obligations.FrameOfAnInstance := by
  intro i s t h
  obtain ⟨args, -, rfl⟩ := exec_eq_next.1 h
  exact ⟨⟨i.op.fn args, rfl, level_settle_new s i _⟩, fun _ _ => level_settle⟩

/-- Everything a step that answers a next state can have done: nothing where nothing is pending, else the next instance has
left the pending list and settled to its operation's function of the levels at its pins. -/
theorem step_eq_next {s t : State} (h : step s = .next t) :
    (s.pending = [] ∧ t = s) ∨
    ∃ i rest args, s.pending = encode i :: rest ∧ readPorts s.level i.ports = some args ∧
      t = { s with pending := rest }.settle i (i.op.fn args) := by
  rcases step_cases s with ⟨idle, hs⟩ | ⟨r, rest, i, hp, hd, hs⟩ | ⟨r, rest, e, -, -, hs⟩
  · rw [hs] at h
    cases h
    exact .inl ⟨idle, rfl⟩
  · rw [hs] at h
    obtain ⟨args, hargs, ht⟩ := exec_eq_next.1 h
    exact .inr ⟨i, rest, args, by rw [hp, encodeInvertsDecode r i hd], hargs, ht⟩
  · rw [hs] at h
    cases h

/-- A step from a state whose next pending instance has driven pins. -/
theorem step_of_driven {s : State} {i : Instr} {rest : List RawInst} {args : Ports Bit i.op.inputWidths}
    (hp : s.pending = encode i :: rest) (hargs : readPorts s.level i.ports = some args) :
    step s = .next ({ s with pending := rest }.settle i (i.op.fn args)) := by
  have hd : step s = exec i { s with pending := rest } := by simp [step, hp, decodeInvertsEncode i]
  rw [hd]
  exact exec_eq_next.2 ⟨args, hargs, rfl⟩

/-- Settles O30: the three cases are those of the definition, a word of 21 or more being refused by the decoder
(`decode_of_ge`). -/
theorem stepRunsTheDecodedInstance : Obligations.StepRunsTheDecodedInstance := by
  refine fun s => ⟨fun r rest i hp hd => ?_, fun r rest hp hw => ?_, fun hp => ?_⟩
  · simp [step, hp, hd]
  · simp [step, hp, decode_of_ge hw, Refusal.ofReject]
  · simp [step, hp]

/-- Settles O37: a step moves the next pending instance behind the settled ones, if it does anything. -/
theorem wiringIsFixed : Obligations.WiringIsFixed := by
  intro s t h
  rcases step_eq_next h with ⟨-, rfl⟩ | ⟨i, rest, args, hp, -, rfl⟩
  · exact ⟨rfl, rfl, rfl, rfl⟩
  · exact ⟨by simp [State.wiring, hp], rfl, rfl, rfl⟩

/-- R16: uses in a row answer what each answers alone. -/
theorem uses_eq (k : Block) (b : BlockState) (inputs : List (Ports Bit k.netlist.inputWidths)) :
    k.uses b inputs = (b, inputs.map k.netlist.eval) := by
  induction inputs with
  | nil => rfl
  | cons v rest ih => simp [Block.uses, Block.use, ih]

/-- Settles O35: the block's state is of the unit type, and a use leaves it as it is (`uses_eq`). -/
theorem theBlockHoldsNoState : Obligations.TheBlockHoldsNoState :=
  ⟨fun _ _ => rfl, fun _ _ _ _ _ => rfl, uses_eq, fun _ _ _ => rfl⟩

end Machine
end Sys2Proof
end

