-- ==== Sys2Proof/Proofs/Evaluation.lean ====
section
/-! Evaluating the instances of a netlist in their listed order (30_encoding.md R67), and the machine that does it one instance a
step: the evaluation stays correct, never stops, and comes to the netlist's value. -/

namespace Sys2Proof

/-- Reading what is at hand of each entry is reading the list of what is at hand. -/
theorem readAll_map {γ δ α : Type} (f : δ → Option α) (g : γ → δ) (l : List γ) :
    readAll f (l.map g) = readAll (fun c => f (g c)) l := by
  induction l with
  | nil => rfl
  | cons c rest ih => simp only [List.map_cons, readAll_cons, ih]

section
variable {α : Type} {const : Bit → α} {apply : (op : Op) → Ports α op.inputWidths → Option (List α)}
  {ports : List (List α)}

/-- The first instance of a list, where its pins carry `args` and its operation gives `out`. -/
theorem evalCells_cons_of {i : Instr} {rest : List Instr} {cells : List (List α)} {args : Ports α i.op.inputWidths}
    {out : List α} (hargs : readPorts (Driver.read const ports cells) i.ports = some args)
    (hout : apply i.op args = some out) :
    evalCells const apply ports (i :: rest) cells = evalCells const apply ports rest (cells ++ [out]) := by
  simp only [evalCells, hargs, hout]

/-- An evaluation that answers has read the pins of the first instance, applied its operation and gone on. -/
theorem evalCells_cons_eq_some {i : Instr} {rest : List Instr} {cells final : List (List α)} :
    evalCells const apply ports (i :: rest) cells = some final ↔
      ∃ args out, readPorts (Driver.read const ports cells) i.ports = some args ∧ apply i.op args = some out ∧
        evalCells const apply ports rest (cells ++ [out]) = some final := by
  constructor
  · intro h
    simp only [evalCells] at h
    split at h
    · split at h
      · exact ⟨_, _, ‹_›, ‹_›, h⟩
      · cases h
    · cases h
  · rintro ⟨args, out, hargs, hout, h⟩
    rw [evalCells_cons_of hargs hout, h]

/-- A row of ports reads where every driver in it exists. -/
theorem readPorts_isSome_of_wellFormed {ws : List Nat} {cells : List (List α)} {p : Ports Driver ws}
    (h : (p.lists.all fun port => port.all
      (Driver.wellFormed (ports.map List.length) (cells.map List.length))) = true) :
    ∃ args, readPorts (Driver.read const ports cells) p = some args := by
  refine Option.ne_none_iff_exists'.1 fun none => ?_
  obtain ⟨port, hport, d, hd, undriven⟩ := readPorts_eq_none.1 none
  have driven := read_isSome const ports cells d
  rw [undriven, List.all_eq_true.1 (List.all_eq_true.1 h port hport) d hd] at driven
  cases driven

/-- A row of wires that reads is a row of drivers that exist. -/
theorem wellFormed_of_readAll {cells : List (List α)} {ds : List Driver} {as : List α}
    (h : readAll (Driver.read const ports cells) ds = some as) :
    ds.all (Driver.wellFormed (ports.map List.length) (cells.map List.length)) = true :=
  List.all_eq_true.2 fun d hd => by
    rw [← read_isSome const ports cells d]
    exact readAll_isSome.1 (Option.isSome_of_eq_some h) d hd

/-- R64(2): instances that have values read only what stands before them. -/
theorem wellFormed_of_evalCells (width : ∀ op args out, apply op args = some out → out.length = op.output.width)
    {insts : List Instr} {cells final : List (List α)} (h : evalCells const apply ports insts cells = some final) :
    instsWellFormed (ports.map List.length) (cells.map List.length) insts = true ∧
      final.map List.length = cells.map List.length ++ outWidths insts := by
  induction insts generalizing cells with
  | nil => cases h; exact ⟨rfl, by simp [outWidths]⟩
  | cons i rest ih =>
    obtain ⟨args, out, hargs, hout, hrest⟩ := evalCells_cons_eq_some.1 h
    obtain ⟨later, widths⟩ := ih hrest
    rw [List.map_append, List.map_singleton, width i.op args out hout] at later widths
    refine ⟨Bool.and_eq_true_iff.2 ⟨List.all_eq_true.2 fun port hport => ?_, later⟩, by simpa [outWidths] using widths⟩
    have reads := readAll_isSome.1 (Option.isSome_of_eq_some (readPorts_eq_some.1 hargs)) port hport
    obtain ⟨as, has⟩ := Option.isSome_iff_exists.1 reads
    exact wellFormed_of_readAll has

/-- R67: an operation is applied at every instance. -/
theorem applied_of_evalCells {insts : List Instr} {cells final : List (List α)}
    (h : evalCells const apply ports insts cells = some final) :
    ∀ i ∈ insts, ∃ args out, apply i.op args = some out := by
  induction insts generalizing cells with
  | nil => exact fun _ hi => absurd hi List.not_mem_nil
  | cons i rest ih =>
    obtain ⟨args, out, -, hout, hrest⟩ := evalCells_cons_eq_some.1 h
    exact List.forall_mem_cons.2 ⟨⟨args, out, hout⟩, ih hrest⟩

/-- What an operation's application has to do for a netlist to have a value: to answer, with the output port's width. -/
def AppliesAll (apply : (op : Op) → Ports α op.inputWidths → Option (List α)) : Prop :=
  ∀ op args, ∃ out, apply op args = some out ∧ out.length = op.output.width

/-- R67: well-formed instances have values, each of its output port's width. -/
theorem evalCells_of_wellFormed (total : AppliesAll apply) {insts : List Instr} {cells : List (List α)}
    (wf : instsWellFormed (ports.map List.length) (cells.map List.length) insts = true) :
    ∃ final, evalCells const apply ports insts cells = some final ∧
      final.map List.length = cells.map List.length ++ outWidths insts := by
  induction insts generalizing cells with
  | nil => exact ⟨cells, rfl, by simp [outWidths]⟩
  | cons i rest ih =>
    obtain ⟨first, later⟩ := Bool.and_eq_true_iff.1 wf
    obtain ⟨args, hargs⟩ := readPorts_isSome_of_wellFormed (const := const) (p := i.ports) first
    obtain ⟨out, hout, width⟩ := total i.op args
    obtain ⟨final, hfinal, widths⟩ := ih (cells := cells ++ [out]) (by simpa [width] using later)
    exact ⟨final, evalCells_cons_eq_some.2 ⟨args, out, hargs, hout, hfinal⟩, by simpa [width, outWidths] using widths⟩

end

/-- R160: every operation answers, with its output port's width. -/
theorem appliesAll_bits : AppliesAll Op.bits := fun op args => ⟨_, rfl, bits_length (op.fn args)⟩

/-- The instances of a well-formed netlist have values, each of its output port's width. -/
theorem evalCells_of_netlist {n : Netlist} (wf : n.wellFormed = true) (ports : Ports Bit n.inputWidths) :
    ∃ cells, evalCells id Op.bits ports.lists n.insts [] = some cells ∧ cells.map List.length = outWidths n.insts :=
  evalCells_of_wellFormed appliesAll_bits (by rw [ports.widths]; exact (Bool.and_eq_true_iff.1 wf).1)

/-- Settles O41: the instances have values (`evalCells_of_netlist`), and the output ports are driven by constants, input ports
and these. -/
theorem netlistsHaveAValue : Obligations.NetlistsHaveAValue := by
  intro n ports wf
  obtain ⟨cells, hcells, widths⟩ := evalCells_of_netlist wf ports
  obtain ⟨outs, houts⟩ := readPorts_isSome_of_wellFormed (const := id) (ports := ports.lists) (cells := cells)
    (p := ⟨n.outputs.map OutPort.drivers, rfl⟩)
    (by rw [ports.widths, widths]; simpa using (Bool.and_eq_true_iff.1 wf).2)
  refine ⟨outs.lists, ?_, by simpa [Function.comp_def] using outs.widths⟩
  rw [readPorts_eq_some, readAll_map] at houts
  simp only [Netlist.eval, Netlist.evalWith, hcells, houts]

namespace Machine

/-! The invariant of the settled cells. -/

/-- One more cell is correct where it is its operation's function of what the earlier cells and the inputs carry. -/
theorem cellsCorrect_concat {inputs before : List (List Bit)} {cells : List Cell} {c : Cell}
    (h : CellsCorrect inputs before cells) (hc : c.Correct inputs (before ++ cells.map fun c => c.out.bits)) :
    CellsCorrect inputs before (cells ++ [c]) := by
  induction cells generalizing before with
  | nil => exact ⟨by simpa using hc, trivial⟩
  | cons first rest ih =>
    obtain ⟨correct, later⟩ := h
    exact ⟨correct, ih later (by simpa using hc)⟩

/-- Settles O38: the one cell that a step may add holds its operation's function of the levels at its pins
(`step_eq_next`), and these are read off the inputs and the cells before it. -/
theorem stepKeepsTheEvaluationCorrect : Obligations.StepKeepsTheEvaluationCorrect := by
  intro s t settled h
  rcases step_eq_next h with ⟨-, rfl⟩ | ⟨i, rest, args, -, hargs, rfl⟩
  · exact settled
  · exact cellsCorrect_concat settled ⟨args, hargs, rfl⟩

/-- Settles O39: nothing is settled and nothing pending. -/
theorem resetIsCorrectAndReady : Obligations.ResetIsCorrectAndReady := ⟨trivial, rfl, rfl, rfl⟩

/-! The run of a ready state. -/

/-- The widths of what the settled cells carry. -/
theorem outs_widths (s : State) : s.outs.map List.length = s.settled.map fun c => c.inst.op.output.width := by
  simp [State.outs, Function.comp_def]

/-- R64: where the next pending instance reads only what is driven and settled, a step evaluates it. -/
theorem step_of_ready {s : State} {r : RawInst} {rest : List RawInst} (ready : s.ready = true) (hp : s.pending = r :: rest) :
    ∃ t, step s = .next t ∧ t.ready = true := by
  rw [State.ready, hp, pendingReady] at ready
  cases hd : decode r with
  | error e => simp [hd] at ready
  | ok i =>
    rw [hd] at ready
    obtain ⟨driven, later⟩ := Bool.and_eq_true_iff.1 ready
    obtain ⟨args, hargs⟩ : ∃ args, readPorts s.level i.ports = some args :=
      readPorts_isSome_of_wellFormed (by rw [outs_widths, s.inputs.widths]; exact driven)
    obtain rfl : encode i = r := encodeInvertsDecode r i hd
    exact ⟨_, step_of_driven hp hargs, by simpa [State.ready, State.inputWidths] using later⟩

/-- A ready state's step answers a ready state. -/
theorem ready_progress {s : State} (ready : s.ready = true) : ∃ t, step s = .next t ∧ t.ready = true := by
  cases hp : s.pending with
  | nil => exact ⟨s, by simp [step, hp], ready⟩
  | cons r rest => exact step_of_ready ready hp

/-- One step more at the front of a run. -/
theorem steps_succ_of_next {s t : State} (h : step s = .next t) (k : Nat) : steps (k + 1) s = steps k t := by
  simp only [steps, h]

/-- Settles O40: a ready state's step answers a ready state again (`ready_progress`), and so does every number of steps. -/
theorem readyStatesNeverStop : Obligations.ReadyStatesNeverStop := by
  refine fun s ready => ⟨ready_progress ready, fun k => ?_⟩
  induction k generalizing s with
  | zero => exact ⟨s, rfl⟩
  | succ k ih =>
    obtain ⟨t, ht, again⟩ := ready_progress ready
    rw [steps_succ_of_next ht]
    exact ih t again

/-! The run of a netlist: the machine's settled cells are the cells of the evaluation. -/

/-- From a state whose pending instances have the values `final` behind what is settled, as many steps as instances settle
these values, and change nothing else. -/
theorem steps_of_evalCells {insts : List Instr} {s : State} {final : List (List Bit)} (hp : s.pending = insts.map encode)
    (h : evalCells id Op.bits s.inputs.lists insts s.outs = some final) :
    ∃ t, steps insts.length s = .next t ∧ t.pending = [] ∧ t.outs = final ∧ t.inputs.lists = s.inputs.lists ∧
      t.outputs = s.outputs := by
  induction insts generalizing s with
  | nil => exact ⟨s, rfl, hp, Option.some.inj h, rfl, rfl⟩
  | cons i rest ih =>
    obtain ⟨args, out, hargs, hout, hrest⟩ := evalCells_cons_eq_some.1 h
    obtain rfl : (i.op.fn args).bits = out := Option.some.inj hout
    rw [List.length_cons, steps_succ_of_next (step_of_driven hp hargs)]
    exact ih rfl (by rw [settle_outs]; exact hrest)

/-- The run of a state that has a well-formed netlist's wiring before it and nothing settled. -/
theorem steps_of_netlist {n : Netlist} {ports : Ports Bit n.inputWidths} {s : State} (wf : n.wellFormed = true)
    (pending : s.pending = n.insts.map encode) (settled : s.settled = []) (inputs : s.inputs.lists = ports.lists)
    (outputs : s.outputs = n.outputs) :
    ∃ t, steps n.insts.length s = .next t ∧ t.pending = [] ∧ t.readOutputs = n.eval ports := by
  obtain ⟨cells, hcells, -⟩ := evalCells_of_netlist wf ports
  obtain ⟨t, ht, done, houts, hinputs, houtputs⟩ :=
    steps_of_evalCells pending (by rw [inputs, State.outs, settled]; exact hcells)
  refine ⟨t, ht, done, ?_⟩
  have level : t.level = Driver.read id ports.lists cells := funext fun d => by rw [State.level, hinputs, inputs, houts]
  simp only [State.readOutputs, level, houtputs, outputs, Netlist.eval, Netlist.evalWith, hcells]

/-- Settles O42: the run of the loaded netlist (`steps_of_netlist`). -/
theorem theMachineComputesTheNetlist : Obligations.TheMachineComputesTheNetlist := fun _ _ wf =>
  steps_of_netlist wf rfl rfl rfl rfl

/-- Settles O43: where the host drives new levels nothing is settled any more and the whole wiring is pending, so the run is
that of a netlist just loaded (`steps_of_netlist`). -/
theorem outputsForgetEarlierInputs : Obligations.OutputsForgetEarlierInputs := by
  intro n s new ports wf _ wiring outputs inputs
  obtain ⟨t, ht, -, houts⟩ := steps_of_netlist (s := s.drive new) wf wiring rfl inputs outputs
  exact ⟨t, ht, houts⟩

end Machine
end Sys2Proof
end

