-- ==== Sys2Proof/Proofs/Schedules.lean ====
section
/-! Evaluating instances in any order (20_memory.md R51): what settles is what the listed order gives, and an order that respects
the wires settles everything. -/

namespace Sys2Proof

/-- R67: what the evaluation in the listed order has at instance `k` is the operation applied to what the pins carry. -/
theorem evalCells_getElem? {α : Type} {const : Bit → α} {apply : (op : Op) → Ports α op.inputWidths → Option (List α)}
    {ports cells final : List (List α)} {insts : List Instr} {k : Nat} {i : Instr}
    (h : evalCells const apply ports insts cells = some final) (hi : insts[k]? = some i) :
    ∃ args out, readPorts (Driver.read const ports final) i.ports = some args ∧ apply i.op args = some out ∧
      final[cells.length + k]? = some out := by
  induction insts generalizing cells k with
  | nil => cases hi
  | cons first rest ih =>
    obtain ⟨args, out, hargs, hout, hrest⟩ := evalCells_cons_eq_some.1 h
    cases k with
    | zero =>
      cases hi
      obtain ⟨more, rfl, -⟩ := evalCells_extends hrest
      refine ⟨args, out, readPorts_mono (fun d a hd => ?_) hargs, hout, by simp⟩
      rw [List.append_assoc]
      exact read_append hd
    | succ k =>
      obtain ⟨args', out', hargs', hout', hk⟩ := ih hrest hi
      exact ⟨args', out', hargs', hout', by simpa [Nat.add_right_comm, Nat.add_assoc] using hk⟩

/-- There is a value for every instance. -/
theorem evalCells_length {α : Type} {const : Bit → α} {apply : (op : Op) → Ports α op.inputWidths → Option (List α)}
    {ports final : List (List α)} {insts : List Instr} (h : evalCells const apply ports insts [] = some final) :
    final.length = insts.length := by
  obtain ⟨more, rfl, length⟩ := evalCells_extends h
  exact length

/-- Whatever has settled has the value that `cells` gives it. -/
def ValuesOf (cells : List (List Bit)) (known : List (Option (List Bit))) : Prop :=
  ∀ (k : Nat) (v : List Bit), known[k]? = some (some v) → cells[k]? = some v

theorem valuesOf_nothing (cells : List (List Bit)) (m : Nat) : ValuesOf cells (List.replicate m none) := fun k v h => by
  simp [List.getElem?_replicate] at h

theorem ValuesOf.set {cells : List (List Bit)} {known : List (Option (List Bit))} (h : ValuesOf cells known) (k : Nat) :
    ValuesOf cells (known.set k cells[k]?) := fun l v hl => by
  rw [List.getElem?_set] at hl
  split at hl
  · rename_i hkl
    split at hl
    · rw [← hkl]
      exact Option.some.inj hl
    · cases hl
  · exact h l v hl

/-- R51: a level that has settled is the one of the listed order. -/
theorem ValuesOf.read_of_readKnown {cells ports : List (List Bit)} {known : List (Option (List Bit))}
    (h : ValuesOf cells known) (d : Driver) (b : Bit) (hd : d.readKnown ports known = some b) :
    d.read id ports cells = some b := by
  cases d with
  | const c => exact hd
  | port p j => exact hd
  | cell k j =>
    simp only [Driver.readKnown] at hd
    split at hd
    · exact bitAt_eq_some.2 ⟨_, h k _ ‹_›, hd⟩
    · cases hd

section
variable {insts : List Instr} {ports cells : List (List Bit)} (value : evalCells id Op.bits ports insts [] = some cells)
  {known : List (Option (List Bit))}
include value

/-- An instance whose pins have settled to the levels of the listed order settles to its value there. -/
theorem fire_of_driven {k : Nat} {i : Instr} {args : Ports Bit i.op.inputWidths} (hi : insts[k]? = some i)
    (settled : readPorts (Driver.readKnown ports known) i.ports = some args)
    (listed : readPorts (Driver.read id ports cells) i.ports = some args) :
    fire insts ports known k = known.set k cells[k]? := by
  obtain ⟨args', out, hargs, hout, hk⟩ := evalCells_getElem? value hi
  obtain rfl : args = args' := Option.some.inj (listed.symm.trans hargs)
  rw [List.length_nil, Nat.zero_add] at hk
  simp only [fire, hi, settled, hk]
  exact congrArg _ hout

/-- The evaluation of an instance keeps what has settled at the values of the listed order. -/
theorem ValuesOf.fire (h : ValuesOf cells known) (k : Nat) : ValuesOf cells (fire insts ports known k) := by
  cases hi : insts[k]? with
  | none => simpa only [Sys2Proof.fire, hi] using h
  | some i =>
    cases hargs : readPorts (Driver.readKnown ports known) i.ports with
    | none => simpa only [Sys2Proof.fire, hi, hargs] using h
    | some args =>
      rw [fire_of_driven value hi hargs (readPorts_mono h.read_of_readKnown hargs)]
      exact h.set k

/-- However many instances are evaluated in whatever order. -/
theorem ValuesOf.foldl_fire (h : ValuesOf cells known) (schedule : List Nat) :
    ValuesOf cells (schedule.foldl (Sys2Proof.fire insts ports) known) := by
  induction schedule generalizing known with
  | nil => exact h
  | cons k rest ih => exact ih (h.fire value k)

end

/-- Settles O44: at the start nothing has settled, and every evaluation of an instance keeps the values (`ValuesOf.fire`). -/
theorem noScheduleGivesAnotherValue : Obligations.NoScheduleGivesAnotherValue := fun _ _ cells schedule k v value =>
  (valuesOf_nothing cells _).foldl_fire value schedule k v

/-- A driver that reads only instances in `done` carries its level of the listed order, once these have settled. -/
theorem readKnown_of_done {ports cells : List (List Bit)} {known : List (Option (List Bit))} {done : List Nat} {d : Driver}
    (settled : ∀ c ∈ done, known[c]? = some cells[c]?) (reads : ∀ c j, d = .cell c j → c ∈ done) :
    d.readKnown ports known = d.read id ports cells := by
  cases d with
  | const b => rfl
  | port p j => rfl
  | cell c j =>
    simp only [Driver.readKnown, settled c (reads c j rfl), Driver.read, bitAt]
    cases cells[c]? <;> rfl

section
variable {insts : List Instr} {ports cells : List (List Bit)} (value : evalCells id Op.bits ports insts [] = some cells)
include value

/-- In an order that respects the wires, each instance that has had its turn has settled to its value of the listed order. -/
theorem evalSchedule_of_respectsWires {order : List Nat} (respects : RespectsWires insts order)
    (numbers : ∀ k ∈ order, k < insts.length) {done rest : List Nat} (split : order = done ++ rest) :
    (evalSchedule insts ports done).length = insts.length ∧
      ∀ c ∈ done, (evalSchedule insts ports done)[c]? = some cells[c]? := by
  induction done using List.reverseRecOn generalizing rest with
  | nil => exact ⟨by simp [evalSchedule], by simp⟩
  | append_singleton done k ih =>
    rw [List.append_assoc] at split
    obtain ⟨length, settled⟩ := ih split
    have hk : k < insts.length := numbers k (by simp [split])
    obtain ⟨i, hi⟩ : ∃ i, insts[k]? = some i := ⟨_, List.getElem?_eq_getElem hk⟩
    obtain ⟨args, out, hargs, -, -⟩ := evalCells_getElem? value hi
    have pins : readPorts (Driver.readKnown ports (evalSchedule insts ports done)) i.ports = some args := by
      rw [← hargs]
      refine readPorts_congr fun port hport d hd => readKnown_of_done settled fun c j hc => ?_
      exact respects done k rest i split hi port hport c j (hc ▸ hd)
    have turn : evalSchedule insts ports (done ++ [k]) = (evalSchedule insts ports done).set k cells[k]? := by
      rw [← fire_of_driven value hi pins hargs, evalSchedule, List.foldl_append]
      rfl
    rw [turn]
    refine ⟨by rw [List.length_set, length], fun c hc => ?_⟩
    rw [List.getElem?_set]
    split
    · rename_i hck
      rw [if_pos (by rw [length]; exact hck ▸ hk), hck]
    · rename_i hck
      refine settled c ((List.mem_append.1 hc).resolve_right fun h => hck (List.mem_singleton.1 h).symm)

end

/-- Settles O45: in a permutation every instance has its turn (`evalSchedule_of_respectsWires`). -/
theorem everyOrderThatRespectsTheWiresSettles : Obligations.EveryOrderThatRespectsTheWiresSettles := by
  intro n ports order wf perm respects
  obtain ⟨cells, value, -⟩ := evalCells_of_netlist wf ports
  have turn : ∀ k, k ∈ order ↔ k < n.insts.length := fun k => by rw [perm.mem_iff, List.mem_range]
  obtain ⟨length, settled⟩ :=
    evalSchedule_of_respectsWires value respects (fun k => (turn k).1) (List.append_nil order).symm
  refine ⟨cells, value, List.ext_getElem? fun k => ?_⟩
  have cells_length := evalCells_length value
  rcases Nat.lt_or_ge k n.insts.length with hk | hk
  · rw [settled k ((turn k).2 hk), List.getElem?_map, List.getElem?_eq_getElem (cells_length ▸ hk)]
    rfl
  · rw [List.getElem?_eq_none (length ▸ hk), List.getElem?_eq_none (by rwa [List.length_map, cells_length])]

end Sys2Proof
end

