-- ==== Sys2Proof/Proofs/Recipes.lean ====
section
/-! The recipes as netlists (44_laws_and_structure.md R141, R146): each is well formed and computes its operation, and so does the
chain of recipes down to `nand`. -/

namespace Sys2Proof

/-! The values of a row of ports, as Bits and buses. -/

theorem ports_lists_nil (v : Ports Bit []) : v.lists = [] := List.map_eq_nil_iff.1 v.widths

theorem ports_lists_bus {n : Nat} {ws : List Nat} (v : Ports Bit (n :: ws)) :
    ∃ (x : Bus n) (q : Ports Bit ws), v.lists = x.bits :: q.lists := by
  obtain ⟨l, rest, hv, hl, hrest⟩ := List.map_eq_cons_iff.1 v.widths
  exact ⟨Bus.ofBits l hl, ⟨rest, hrest⟩, by rw [hv, bits_ofBits]⟩

theorem ports_lists_bit {ws : List Nat} (v : Ports Bit (1 :: ws)) :
    ∃ (b : Bit) (q : Ports Bit ws), v.lists = [b] :: q.lists := by
  obtain ⟨l, rest, hv, hl, hrest⟩ := List.map_eq_cons_iff.1 v.widths
  obtain ⟨b, rfl⟩ := List.length_eq_one_iff.1 hl
  exact ⟨b, ⟨rest, hrest⟩, hv⟩

theorem ports_g1 (v : Ports Bit [1]) : ∃ a, v.lists = [[a]] := by
  obtain ⟨a, p, hv⟩ := ports_lists_bit v
  exact ⟨a, by rw [hv, ports_lists_nil p]⟩

theorem ports_g2 (v : Ports Bit [1, 1]) : ∃ a b, v.lists = [[a], [b]] := by
  obtain ⟨a, p, hv⟩ := ports_lists_bit v
  obtain ⟨b, hp⟩ := ports_g1 p
  exact ⟨a, b, by rw [hv, hp]⟩

theorem ports_g3 (v : Ports Bit [1, 1, 1]) : ∃ a b c, v.lists = [[a], [b], [c]] := by
  obtain ⟨a, p, hv⟩ := ports_lists_bit v
  obtain ⟨b, c, hp⟩ := ports_g2 p
  exact ⟨a, b, c, by rw [hv, hp]⟩

theorem ports_w1 {n : Nat} (v : Ports Bit [n]) : ∃ x : Bus n, v.lists = [x.bits] := by
  obtain ⟨x, p, hv⟩ := ports_lists_bus v
  exact ⟨x, by rw [hv, ports_lists_nil p]⟩

theorem ports_w2 {m n : Nat} (v : Ports Bit [m, n]) : ∃ (x : Bus m) (y : Bus n), v.lists = [x.bits, y.bits] := by
  obtain ⟨x, p, hv⟩ := ports_lists_bus v
  obtain ⟨y, hp⟩ := ports_w1 p
  exact ⟨x, y, by rw [hv, hp]⟩

theorem ports_x {n : Nat} (v : Ports Bit [1, n]) : ∃ (x : Bit) (y : Bus n), v.lists = [[x], y.bits] := by
  obtain ⟨x, p, hv⟩ := ports_lists_bit v
  obtain ⟨y, hp⟩ := ports_w1 p
  exact ⟨x, y, by rw [hv, hp]⟩

theorem ports_wm (v : Ports Bit [16, 16, 1]) : ∃ (x y : Bits16) (k : Bit), v.lists = [x.bits, y.bits, [k]] := by
  obtain ⟨x, p, hv⟩ := ports_lists_bus v
  obtain ⟨y, q, hp⟩ := ports_lists_bus p
  obtain ⟨k, hq⟩ := ports_g1 q
  exact ⟨x, y, k, by rw [hv, hp, hq]⟩

theorem ports_wm4 {n : Nat} (v : Ports Bit [16, 16, 16, 16, n]) :
    ∃ (a b c d : Bits16) (k : Bus n), v.lists = [a.bits, b.bits, c.bits, d.bits, k.bits] := by
  obtain ⟨a, p, hv⟩ := ports_lists_bus v
  obtain ⟨b, q, hp⟩ := ports_lists_bus p
  obtain ⟨c, r, hq⟩ := ports_lists_bus q
  obtain ⟨d, k, hr⟩ := ports_w2 r
  exact ⟨a, b, c, d, k, by rw [hv, hp, hq, hr]⟩

theorem ports_wm8 (v : Ports Bit [16, 16, 16, 16, 16, 16, 16, 16, 3]) :
    ∃ (a b c d e f g h : Bits16) (k : Bits3),
      v.lists = [a.bits, b.bits, c.bits, d.bits, e.bits, f.bits, g.bits, h.bits, k.bits] := by
  obtain ⟨a, p, hv⟩ := ports_lists_bus v
  obtain ⟨b, q, hp⟩ := ports_lists_bus p
  obtain ⟨c, r, hq⟩ := ports_lists_bus q
  obtain ⟨d, s, hr⟩ := ports_lists_bus r
  obtain ⟨e, f, g, h, k, hs⟩ := ports_wm4 s
  exact ⟨a, b, c, d, e, f, g, h, k, by rw [hv, hp, hq, hr, hs]⟩

/-! Running the instances of a recipe. -/

/-- The application that netlists use, on the lists of a row of ports. -/
theorem evalOp_lists {op : Op} (v : Ports Bit op.inputWidths) : evalOp op v.lists = op.bits v := by
  rw [evalOp, dif_pos v.widths]

/-- The first instance of a list gives `out` where its pins carry `vs`, and the rest goes on behind it. -/
theorem evalCells_step {ports cells vs final : List (List Bit)} {i : Instr} {rest : List Instr} {out : List Bit}
    (hvs : readAll (readAll (Driver.read id ports cells)) i.args = some vs) (hout : evalOp i.op vs = some out)
    (hrest : evalCells id Op.bits ports rest (cells ++ [out]) = some final) :
    evalCells id Op.bits ports (i :: rest) cells = some final := by
  let args : Ports Bit i.op.inputWidths := ⟨vs, by rw [readAll_widths hvs, i.args_widths]⟩
  exact evalCells_cons_eq_some.2 ⟨args, out, readPorts_eq_some.2 hvs, by rw [← evalOp_lists]; exact hout, hrest⟩

/-- A recipe's value, from the values of its instances. -/
theorem evalWith_netlist {α : Type} {const : Bit → α} {apply : (op : Op) → Ports α op.inputWidths → Option (List α)}
    {op : Op} {insts : List Instr} {drivers : List Driver} {ports cells : List (List α)} {out : List α}
    (hcells : evalCells const apply ports insts [] = some cells)
    (hout : readAll (Driver.read const ports cells) drivers = some out) :
    (op.netlist insts drivers).evalWith const apply ports = some [out] := by
  simp only [Op.netlist, Netlist.evalWith, hcells, readAll, hout]

/-- Instances one after another. -/
theorem evalCells_append {α : Type} {const : Bit → α} {apply : (op : Op) → Ports α op.inputWidths → Option (List α)}
    {ports cells mid : List (List α)} {first later : List Instr}
    (h : evalCells const apply ports first cells = some mid) :
    evalCells const apply ports (first ++ later) cells = evalCells const apply ports later mid := by
  induction first generalizing cells with
  | nil => cases h; rfl
  | cons i rest ih =>
    obtain ⟨args, out, hargs, hout, hrest⟩ := evalCells_cons_eq_some.1 h
    rw [List.cons_append, evalCells_cons_of hargs hout, ih hrest]

/-- R100, R122: numbered instances, each giving its `out` from the inputs and the ones before it. -/
theorem evalCells_numbered {ports : List (List Bit)} {lane : Nat → Instr} {out : Nat → List Bit} {m : Nat}
    (h : ∀ k < m, ∃ vs, readAll (readAll (Driver.read id ports ((List.range k).map out))) (lane k).args = some vs ∧
      evalOp (lane k).op vs = some (out k)) :
    evalCells id Op.bits ports ((List.range m).map lane) [] = some ((List.range m).map out) := by
  induction m with
  | zero => rfl
  | succ m ih =>
    obtain ⟨vs, hvs, hout⟩ := h m m.lt_succ_self
    rw [List.range_succ, List.map_append, List.map_append,
      evalCells_append (ih fun k hk => h k (Nat.lt_succ_of_lt hk))]
    exact evalCells_step hvs hout rfl

/-- R100, R122: sixteen lanes whose first output pins carry the Bits of a word. -/
theorem evalWith_lanes {op : Op} {ports : List (List Bit)} {lane : Nat → Instr} {out : Nat → List Bit} {word : Bits16}
    (h : ∀ k < 16, ∃ vs, readAll (readAll (Driver.read id ports ((List.range k).map out))) (lane k).args = some vs ∧
      evalOp (lane k).op vs = some (out k))
    (first : ∀ k < 16, (out k)[0]? = some (Bus.at word k)) :
    (op.lanes lane).evalWith id Op.bits ports = some [word.bits] := by
  refine evalWith_netlist (evalCells_numbered h) (readAll_eq_some.2 ?_)
  rw [Bus.bits, List.map_map, List.map_map]
  refine List.map_congr_left fun k hk => ?_
  simpa [Driver.read, bitAt_eq_some, List.mem_range.1 hk] using first k (List.mem_range.1 hk)

/-- The wire at one index of a bus port. -/
theorem read_port_bits {n p k : Nat} {ports cells : List (List Bit)} {v : Bus n} (hp : ports[p]? = some v.bits)
    (hk : k < n) : Driver.read id ports cells (.port p k) = some (Bus.at v k) :=
  bitAt_eq_some.2 ⟨_, hp, by rw [bits_getElem?, if_pos hk]⟩

/-- The whole of a row's entry, wire by wire. -/
theorem readAll_whole {α : Type} {f : Driver → Option α} {g : Nat → Driver} {n : Nat} {l : List α} (hl : l.length = n)
    (h : ∀ j, f (g j) = l[j]?) : readAll f (Pins.of n g).drivers = some l := by
  refine readAll_eq_some.2 (List.ext_getElem? fun j => ?_)
  subst hl
  by_cases hj : j < l.length <;> simp [Pins.of, h, hj]

theorem readAll_portPins {α : Type} {const : Bit → α} {ports cells : List (List α)} {n p : Nat} {l : List α}
    (hp : ports[p]? = some l) (hl : l.length = n) :
    readAll (Driver.read const ports cells) (portPins n p).drivers = some l :=
  readAll_whole hl fun j => by simp [Driver.read, bitAt, hp]

theorem readAll_cellPins {α : Type} {const : Bit → α} {ports cells : List (List α)} {n k : Nat} {l : List α}
    (hk : cells[k]? = some l) (hl : l.length = n) :
    readAll (Driver.read const ports cells) (cellPins n k).drivers = some l :=
  readAll_whole hl fun j => by simp [Driver.read, bitAt, hk]

/-! The Bits of the buses that the gates build. -/

theorem bits_build (n : Nat) (f : Nat → Bit) : (Bus.build n f).bits = (List.range n).map f :=
  List.map_congr_left fun _ hi => at_build_of_lt (List.mem_range.1 hi)

theorem bits_sub {n : Nat} (v : Bus n) (lo len : Nat) :
    (Bus.sub v lo len).bits = (List.range len).map fun j => Bus.at v (lo + j) := bits_build len _

theorem bits_join {m n : Nat} (lo : Bus m) (hi : Bus n) : (Bus.join lo hi).bits = lo.bits ++ hi.bits := by
  rw [Bus.join, bits_build, List.range_add, List.map_append, List.map_map]
  refine congrArg₂ _ (List.map_congr_left fun i hi => if_pos (List.mem_range.1 hi)) (List.map_congr_left fun i _ => ?_)
  simp

/-- D7: the four branches, the high selector Bit next to `x`. -/
theorem gate_dmux4way_bits (x : Bit) (sel : Bits2) :
    (Gate.dmux4way x sel).bits =
      [Gate.and (Gate.not (Bus.at sel 0)) (Gate.and (Gate.not (Bus.at sel 1)) x),
       Gate.and (Bus.at sel 0) (Gate.and (Gate.not (Bus.at sel 1)) x),
       Gate.and (Gate.not (Bus.at sel 0)) (Gate.and (Bus.at sel 1) x),
       Gate.and (Bus.at sel 0) (Gate.and (Bus.at sel 1) x)] := by
  simp only [Gate.dmux4way, Gate.dmux, bits_join, bits_lit, at_lit]
  rfl

/-- D7: the eight branches, as two times four. -/
theorem gate_dmux8way_bits (x : Bit) (sel : Bits3) :
    (Gate.dmux8way x sel).bits =
      (Gate.dmux4way (Gate.and (Gate.not (Bus.at sel 2)) x) (Bus.sub sel 0 2)).bits ++
        (Gate.dmux4way (Gate.and (Bus.at sel 2) x) (Bus.sub sel 0 2)).bits := by
  simp only [Gate.dmux8way, Gate.dmux, bits_join, at_lit]
  rfl

/-! What an operation gives on the Bits of its ports is what its gate gives. -/

theorem evalOp_nand (a b : Bit) : evalOp .nand [[a], [b]] = some [Gate.nand a b] := congrArg some (bits_one _)
theorem evalOp_not (a : Bit) : evalOp .not [[a]] = some [Gate.not a] := congrArg some (bits_one _)
theorem evalOp_and (a b : Bit) : evalOp .and [[a], [b]] = some [Gate.and a b] := congrArg some (bits_one _)
theorem evalOp_or (a b : Bit) : evalOp .or [[a], [b]] = some [Gate.or a b] := congrArg some (bits_one _)
theorem evalOp_nor (a b : Bit) : evalOp .nor [[a], [b]] = some [Gate.nor a b] := congrArg some (bits_one _)
theorem evalOp_xor (a b : Bit) : evalOp .xor [[a], [b]] = some [Gate.xor a b] := congrArg some (bits_one _)
theorem evalOp_mux (a b sel : Bit) : evalOp .mux [[a], [b], [sel]] = some [Gate.mux a b sel] :=
  congrArg some (bits_one _)
theorem evalOp_dmux (x sel : Bit) :
    evalOp .dmux [[x], [sel]] = some [Gate.and (Gate.not sel) x, Gate.and sel x] := congrArg some (bits_lit [_, _])
theorem evalOp_halfAdder (a b : Bit) : evalOp .halfAdder [[a], [b]] = some [Gate.xor a b, Gate.and a b] :=
  congrArg some (bits_lit [_, _])
theorem evalOp_fullAdder (a b c : Bit) :
    evalOp .fullAdder [[a], [b], [c]] =
      some [Gate.xor (Gate.xor a b) c, Gate.or (Gate.or (Gate.and a b) (Gate.and b c)) (Gate.and c a)] :=
  congrArg some (bits_lit [_, _])

/-- On the Bits of buses, from what the operation's function gives there. -/
theorem evalOp_eq_bits {op : Op} {vs : List (List Bit)} {out : Bus op.output.width} (h : vs.map List.length = op.inputWidths)
    (fn : op.fn ⟨vs, h⟩ = out) : evalOp op vs = some out.bits := by
  rw [evalOp, dif_pos h, Op.bits, fn]

theorem evalOp_not16 (x : Bits16) : evalOp .not16 [x.bits] = some (Gate.not16 x).bits :=
  evalOp_eq_bits (by simp; rfl) (fn_not16 x _)
theorem evalOp_and16 (a b : Bits16) : evalOp .and16 [a.bits, b.bits] = some (Gate.and16 a b).bits :=
  evalOp_eq_bits (by simp; rfl) (fn_and16 a b _)
theorem evalOp_or16 (a b : Bits16) : evalOp .or16 [a.bits, b.bits] = some (Gate.or16 a b).bits :=
  evalOp_eq_bits (by simp; rfl) (fn_or16 a b _)
theorem evalOp_add16 (a b : Bits16) : evalOp .add16 [a.bits, b.bits] = some (Gate.add16 a b).bits :=
  evalOp_eq_bits (by simp; rfl) (fn_add16 a b _)
theorem evalOp_inc16 (a : Bits16) : evalOp .inc16 [a.bits] = some (Gate.inc16 a).bits :=
  evalOp_eq_bits (by simp; rfl) (fn_inc16 a _)
theorem evalOp_mux16 (a b : Bits16) (sel : Bit) : evalOp .mux16 [a.bits, b.bits, [sel]] = some (Gate.mux16 a b sel).bits :=
  evalOp_eq_bits (by simp; rfl) (fn_mux16 a b sel _)
theorem evalOp_or8way (x : Bits8) : evalOp .or8way [x.bits] = some [Gate.or8way x] :=
  (evalOp_eq_bits (by simp; rfl) (fn_or8way x _)).trans (congrArg some (bits_one _))
theorem evalOp_mux4way16 (a b c d : Bits16) (sel : Bits2) :
    evalOp .mux4way16 [a.bits, b.bits, c.bits, d.bits, sel.bits] = some (Gate.mux4way16 a b c d sel).bits :=
  evalOp_eq_bits (by simp; rfl) (fn_mux4way16 a b c d sel _)
theorem evalOp_mux8way16 (a b c d e f g h : Bits16) (sel : Bits3) :
    evalOp .mux8way16 [a.bits, b.bits, c.bits, d.bits, e.bits, f.bits, g.bits, h.bits, sel.bits] =
      some (Gate.mux8way16 a b c d e f g h sel).bits :=
  evalOp_eq_bits (by simp; rfl) (fn_mux8way16 a b c d e f g h sel _)
/-- R107: the sub-bus of the low two selector Bits, as wires. -/
theorem bits_sub2 (sel : Bits3) : (Bus.sub sel 0 2).bits = [Bus.at sel 0, Bus.at sel 1] := bits_sub sel 0 2
theorem evalOp_dmux4way (x : Bit) (sel : Bits2) :
    evalOp .dmux4way [[x], sel.bits] = some (Gate.dmux4way x sel).bits :=
  evalOp_eq_bits (by simp; rfl) (fn_dmux4way x sel _)
theorem evalOp_dmux8way (x : Bit) (sel : Bits3) :
    evalOp .dmux8way [[x], sel.bits] = some (Gate.dmux8way x sel).bits :=
  evalOp_eq_bits (by simp; rfl) (fn_dmux8way x sel _)

/-! Rows of ports, port by port, and of one wire each. -/

theorem readAll_cons_some {δ α : Type} {f : δ → Option α} {d : δ} {rest : List δ} {a : α} {as : List α} (hd : f d = some a)
    (hrest : readAll f rest = some as) : readAll f (d :: rest) = some (a :: as) := by
  simp only [readAll, hd, hrest]

theorem readAll_pins1 {f : Driver → Option Bit} {a : Driver} {va : Bit} (ha : f a = some va) :
    readAll (readAll f) [[a]] = some [[va]] := by
  simp only [readAll, ha]

theorem readAll_pins2 {f : Driver → Option Bit} {a b : Driver} {va vb : Bit} (ha : f a = some va) (hb : f b = some vb) :
    readAll (readAll f) [[a], [b]] = some [[va], [vb]] := by
  simp only [readAll, ha, hb]

theorem readAll_pins3 {f : Driver → Option Bit} {a b c : Driver} {va vb vc : Bit} (ha : f a = some va)
    (hb : f b = some vb) (hc : f c = some vc) : readAll (readAll f) [[a], [b], [c]] = some [[va], [vb], [vc]] := by
  simp only [readAll, ha, hb, hc]

/-! The lifts: lane `k` is the scalar operation on the Bits at index `k` (`liftsAreLaneWise`). -/

theorem not16_lanes (x : Bits16) :
    (Op.not16.lanes fun i => .not (.port 0 i)).evalWith id Op.bits [x.bits] = some [(Gate.not16 x).bits] :=
  evalWith_lanes (fun _ hk => ⟨_, readAll_pins1 (read_port_bits (v := x) rfl hk), evalOp_not _⟩) fun _ hk =>
    congrArg some (at_build_of_lt (f := fun i => Gate.not (Bus.at x i)) hk).symm

theorem and16_lanes (a b : Bits16) :
    (Op.and16.lanes fun i => .and (.port 0 i) (.port 1 i)).evalWith id Op.bits [a.bits, b.bits] =
      some [(Gate.and16 a b).bits] :=
  evalWith_lanes (fun _ hk => ⟨_, readAll_pins2 (read_port_bits (v := a) rfl hk) (read_port_bits (v := b) rfl hk),
    evalOp_and _ _⟩) fun _ hk => congrArg some (at_build_of_lt (f := fun i => Gate.and (Bus.at a i) (Bus.at b i)) hk).symm

theorem or16_lanes (a b : Bits16) :
    (Op.or16.lanes fun i => .or (.port 0 i) (.port 1 i)).evalWith id Op.bits [a.bits, b.bits] =
      some [(Gate.or16 a b).bits] :=
  evalWith_lanes (fun _ hk => ⟨_, readAll_pins2 (read_port_bits (v := a) rfl hk) (read_port_bits (v := b) rfl hk),
    evalOp_or _ _⟩) fun _ hk => congrArg some (at_build_of_lt (f := fun i => Gate.or (Bus.at a i) (Bus.at b i)) hk).symm

theorem mux16_lanes (a b : Bits16) (sel : Bit) :
    (Op.mux16.lanes fun i => .mux (.port 0 i) (.port 1 i) (.port 2 0)).evalWith id Op.bits [a.bits, b.bits, [sel]] =
      some [(Gate.mux16 a b sel).bits] :=
  evalWith_lanes (fun _ hk => ⟨_, readAll_pins3 (read_port_bits (v := a) rfl hk) (read_port_bits (v := b) rfl hk) rfl,
    evalOp_mux _ _ _⟩) fun _ hk =>
    congrArg some (at_build_of_lt (f := fun i => Gate.mux (Bus.at a i) (Bus.at b i) sel) hk).symm

/-- The wire that carries into stage `k` of `add16`: the second output pin of the stage below, `0` at the first (R122). -/
theorem read_carry {ports : List (List Bit)} (a b : Bits16) (k : Nat) :
    Driver.read id ports ((List.range k).map fun i =>
        [Bus.at (Gate.add16 a b) i, (Gate.ripple a b (i + 1)).2])
      (if k = 0 then .const false else .cell (k - 1) 1) = some (Gate.ripple a b k).2 := by
  cases k with
  | zero => rfl
  | succ k =>
    refine bitAt_eq_some.2 ⟨[Bus.at (Gate.add16 a b) k, (Gate.ripple a b (k + 1)).2], ?_, rfl⟩
    rw [Nat.add_sub_cancel, List.getElem?_map, List.getElem?_range k.lt_succ_self]
    rfl

/-- R122, R125: stage `k` gives the Bit `k` of the sum and the carry behind it (`ripple_stage`). -/
theorem evalOp_stage (a b : Bits16) {k : Nat} (hk : k < 16) :
    evalOp .fullAdder [[Bus.at a k], [Bus.at b k], [(Gate.ripple a b k).2]] =
      some [Bus.at (Gate.add16 a b) k, (Gate.ripple a b (k + 1)).2] := by
  rw [evalOp_fullAdder, ← bits_lit [Bus.at (Gate.add16 a b) k, _], ← ripple_stage a b hk]
  exact congrArg some (bits_lit [_, _]).symm

theorem add16_lanes (a b : Bits16) :
    (Op.add16.lanes fun i => .fullAdder (.port 0 i) (.port 1 i) (if i = 0 then .const false else .cell (i - 1) 1)).evalWith
      id Op.bits [a.bits, b.bits] = some [(Gate.add16 a b).bits] :=
  evalWith_lanes (fun k hk => ⟨_, readAll_pins3 (read_port_bits (v := a) rfl hk) (read_port_bits (v := b) rfl hk)
    (read_carry a b k), evalOp_stage a b hk⟩) fun _ _ => rfl

/-- R107: a leaf of the tree of `mux8way16`, on four of the inputs and the low two selector Bits. -/
theorem read_mux8way16_leaf {ports cells : List (List Bit)} {p q r t : Nat} {a b c d : Bits16} {sel : Bits3}
    (ha : ports[p]? = some a.bits) (hb : ports[q]? = some b.bits) (hc : ports[r]? = some c.bits)
    (hd : ports[t]? = some d.bits) (hsel : ports[8]? = some sel.bits) :
    readAll (readAll (Driver.read id ports cells))
        [(portPins 16 p).drivers, (portPins 16 q).drivers, (portPins 16 r).drivers, (portPins 16 t).drivers,
          (portPins 2 8).drivers] =
      some [a.bits, b.bits, c.bits, d.bits, (Bus.sub sel 0 2).bits] := by
  have low : readAll (Driver.read id ports cells) (portPins 2 8).drivers = some [Bus.at sel 0, Bus.at sel 1] :=
    readAll_cons_some (read_port_bits hsel (by decide)) (readAll_cons_some (read_port_bits hsel (by decide)) rfl)
  simp only [readAll, readAll_portPins ha (bits_length a), readAll_portPins hb (bits_length b),
    readAll_portPins hc (bits_length c), readAll_portPins hd (bits_length d), low, bits_sub2]

/-- R107: the tree of `mux8way16`. -/
theorem mux8way16_tree (a b c d e f g h : Bits16) (sel : Bits3) :
    (Op.mux8way16.netlist
        [.mux4way16 (portPins 16 0) (portPins 16 1) (portPins 16 2) (portPins 16 3) (portPins 2 8),
         .mux4way16 (portPins 16 4) (portPins 16 5) (portPins 16 6) (portPins 16 7) (portPins 2 8),
         .mux16 (cellPins 16 0) (cellPins 16 1) (.port 8 2)] (cellPins 16 2).drivers).evalWith id Op.bits
      [a.bits, b.bits, c.bits, d.bits, e.bits, f.bits, g.bits, h.bits, sel.bits] =
      some [(Gate.mux8way16 a b c d e f g h sel).bits] :=
  evalWith_netlist
    (evalCells_step (read_mux8way16_leaf rfl rfl rfl rfl rfl) (evalOp_mux4way16 a b c d (Bus.sub sel 0 2)) <|
      evalCells_step (read_mux8way16_leaf rfl rfl rfl rfl rfl) (evalOp_mux4way16 e f g h (Bus.sub sel 0 2)) <|
      evalCells_step rfl (evalOp_mux16 _ _ _) rfl)
    (readAll_cellPins rfl (bits_length _))

/-- R146(2): the value of each recipe is its operation's, on the lists of a row of ports. Instance by instance the recipe does
what the definition of the gate says (`evalCells_step`). -/
theorem recipe_computes {op : Op} {n : Netlist} (v : Ports Bit op.inputWidths) (hr : recipe op = some n) :
    n.evalWith id Op.bits v.lists = (evalOp op v.lists).map fun out => [out] := by
  cases op <;> cases hr
  case not =>
    obtain ⟨a, hv⟩ := ports_g1 v
    rw [hv, evalOp_not]
    exact evalWith_netlist (evalCells_step rfl (evalOp_nand _ _) rfl) rfl
  case and =>
    obtain ⟨a, b, hv⟩ := ports_g2 v
    rw [hv, evalOp_and]
    exact evalWith_netlist (evalCells_step rfl (evalOp_nand _ _) <| evalCells_step rfl (evalOp_not _) rfl) rfl
  case or =>
    obtain ⟨a, b, hv⟩ := ports_g2 v
    rw [hv, evalOp_or]
    exact evalWith_netlist (evalCells_step rfl (evalOp_not _) <| evalCells_step rfl (evalOp_not _) <|
      evalCells_step rfl (evalOp_nand _ _) rfl) rfl
  case nor =>
    obtain ⟨a, b, hv⟩ := ports_g2 v
    rw [hv, evalOp_nor]
    exact evalWith_netlist (evalCells_step rfl (evalOp_or _ _) <| evalCells_step rfl (evalOp_not _) rfl) rfl
  case xor =>
    obtain ⟨a, b, hv⟩ := ports_g2 v
    rw [hv, evalOp_xor]
    exact evalWith_netlist (evalCells_step rfl (evalOp_nand _ _) <| evalCells_step rfl (evalOp_or _ _) <|
      evalCells_step rfl (evalOp_and _ _) rfl) rfl
  case mux =>
    obtain ⟨a, b, sel, hv⟩ := ports_g3 v
    rw [hv, evalOp_mux]
    exact evalWith_netlist (evalCells_step rfl (evalOp_not _) <| evalCells_step rfl (evalOp_and _ _) <|
      evalCells_step rfl (evalOp_and _ _) <| evalCells_step rfl (evalOp_or _ _) rfl) rfl
  case dmux =>
    obtain ⟨x, sel, hv⟩ := ports_g2 v
    rw [hv, evalOp_dmux]
    exact evalWith_netlist (evalCells_step rfl (evalOp_not _) <| evalCells_step rfl (evalOp_and _ _) <|
      evalCells_step rfl (evalOp_and _ _) rfl) rfl
  case halfAdder =>
    obtain ⟨a, b, hv⟩ := ports_g2 v
    rw [hv, evalOp_halfAdder]
    exact evalWith_netlist (evalCells_step rfl (evalOp_xor _ _) <| evalCells_step rfl (evalOp_and _ _) rfl) rfl
  case fullAdder =>
    obtain ⟨a, b, c, hv⟩ := ports_g3 v
    rw [hv, evalOp_fullAdder]
    exact evalWith_netlist (evalCells_step rfl (evalOp_xor _ _) <| evalCells_step rfl (evalOp_xor _ _) <|
      evalCells_step rfl (evalOp_and _ _) <| evalCells_step rfl (evalOp_and _ _) <|
      evalCells_step rfl (evalOp_and _ _) <| evalCells_step rfl (evalOp_or _ _) <|
      evalCells_step rfl (evalOp_or _ _) rfl) rfl
  case not16 =>
    obtain ⟨x, hv⟩ := ports_w1 v
    rw [hv, evalOp_not16]
    exact not16_lanes x
  case and16 =>
    obtain ⟨a, b, hv⟩ := ports_w2 v
    rw [hv, evalOp_and16]
    exact and16_lanes a b
  case or16 =>
    obtain ⟨a, b, hv⟩ := ports_w2 v
    rw [hv, evalOp_or16]
    exact or16_lanes a b
  case mux16 =>
    obtain ⟨a, b, sel, hv⟩ := ports_wm v
    rw [hv, evalOp_mux16]
    exact mux16_lanes a b sel
  case add16 =>
    obtain ⟨a, b, hv⟩ := ports_w2 v
    rw [hv, evalOp_add16]
    exact add16_lanes a b
  case or8way =>
    obtain ⟨x, hv⟩ := ports_w1 v
    rw [hv, evalOp_or8way]
    exact evalWith_netlist (evalCells_step rfl (evalOp_or _ _) <| evalCells_step rfl (evalOp_or _ _) <|
      evalCells_step rfl (evalOp_or _ _) <| evalCells_step rfl (evalOp_or _ _) <|
      evalCells_step rfl (evalOp_or _ _) <| evalCells_step rfl (evalOp_or _ _) <|
      evalCells_step rfl (evalOp_or _ _) rfl) rfl
  case mux4way16 =>
    obtain ⟨a, b, c, d, sel, hv⟩ := ports_wm4 v
    rw [hv, evalOp_mux4way16]
    exact evalWith_netlist (evalCells_step rfl (evalOp_mux16 a b _) <| evalCells_step rfl (evalOp_mux16 c d _) <|
      evalCells_step rfl (evalOp_mux16 _ _ _) rfl) rfl
  case mux8way16 =>
    obtain ⟨a, b, c, d, e, f, g, h, sel, hv⟩ := ports_wm8 v
    rw [hv, evalOp_mux8way16]
    exact mux8way16_tree a b c d e f g h sel
  case dmux4way =>
    obtain ⟨x, sel, hv⟩ := ports_x v
    rw [hv, evalOp_dmux4way, gate_dmux4way_bits]
    exact evalWith_netlist (evalCells_step rfl (evalOp_dmux _ _) <| evalCells_step rfl (evalOp_dmux _ _) <|
      evalCells_step rfl (evalOp_dmux _ _) rfl) rfl
  case dmux8way =>
    obtain ⟨x, sel, hv⟩ := ports_x v
    have leaves (x : Bit) := bits_sub2 sel ▸ evalOp_dmux4way x (Bus.sub sel 0 2)
    rw [hv, evalOp_dmux8way, gate_dmux8way_bits]
    exact evalWith_netlist (evalCells_step rfl (evalOp_dmux _ _) <| evalCells_step rfl (leaves _) <|
      evalCells_step rfl (leaves _) rfl) rfl
  case inc16 =>
    obtain ⟨a, hv⟩ := ports_w1 v
    rw [hv, evalOp_inc16]
    exact evalWith_netlist (evalCells_step rfl (evalOp_add16 a one16) rfl) rfl

/-- R64, R141: each recipe has its operation's ports and is well formed. -/
theorem recipe_wellFormed {op : Op} {n : Netlist} (hr : recipe op = some n) :
    n.inputs = op.inputs ∧ n.wellFormed = true := by
  cases op <;> cases hr <;> exact ⟨rfl, by decide +kernel⟩

/-- Settles O46: each recipe is well formed, and its value is what its operation gives on the same ports
(`recipe_computes`). -/
theorem recipesComputeTheirOperations : Obligations.RecipesComputeTheirOperations := by
  intro op n v hr
  obtain ⟨inputs, wf⟩ := recipe_wellFormed hr
  refine ⟨inputs, wf, ?_⟩
  rw [recipe_computes v hr, evalOp_lists]
  rfl

/-! The derivation chain. -/

/-- R146(1): how many recipes are nested below an operation. -/
def Op.rank : Op → Nat
  | .nand => 0
  | .not => 1
  | .and | .or | .not16 => 2
  | .nor | .xor | .mux | .dmux | .and16 | .or16 | .or8way => 3
  | .halfAdder | .fullAdder | .mux16 | .dmux4way => 4
  | .add16 | .mux4way16 | .dmux8way => 5
  | .mux8way16 | .inc16 => 6

/-- R146(1): a recipe uses only operations of a lower rank. -/
theorem rank_lt_of_mem_recipe {op : Op} {n : Netlist} (hr : recipe op = some n) : ∀ i ∈ n.insts, i.op.rank < op.rank := by
  cases op <;> cases hr <;> decide +kernel

/-- `recipeDepth` is enough for every operation. -/
theorem rank_lt_recipeDepth (op : Op) : op.rank < recipeDepth := by
  cases op <;> decide

/-- R75: `nand` alone has no recipe. -/
theorem recipe_eq_none {op : Op} : recipe op = none ↔ op = .nand := by
  cases op <;> simp [recipe]

/-- Two ways to apply operations that agree on the operations of a netlist give it the same value. -/
theorem evalWith_congr {α : Type} {const : Bit → α} {apply apply' : (op : Op) → Ports α op.inputWidths → Option (List α)}
    {n : Netlist} {ports : List (List α)} (h : ∀ i ∈ n.insts, ∀ args, apply i.op args = apply' i.op args) :
    n.evalWith const apply ports = n.evalWith const apply' ports := by
  have cells : ∀ (insts : List Instr) (cells : List (List α)), (∀ i ∈ insts, ∀ args, apply i.op args = apply' i.op args) →
      evalCells const apply ports insts cells = evalCells const apply' ports insts cells := by
    intro insts
    induction insts with
    | nil => exact fun _ _ => rfl
    | cons i rest ih =>
      intro cells h
      simp only [evalCells, h i List.mem_cons_self, fun cells => ih cells fun j hj => h j (List.mem_cons_of_mem i hj)]
  simp only [Netlist.evalWith, cells n.insts [] h]

/-- The chain goes down by one recipe. -/
theorem derive_succ {α : Type} {const : Bit → α} {nandOn : α → α → α} {fuel : Nat} {op : Op} {n : Netlist}
    (hr : recipe op = some n) (args : Ports α op.inputWidths) :
    derive const nandOn (fuel + 1) op args =
      (n.evalWith const (derive const nandOn fuel) args.lists).map List.flatten := by
  cases op <;> cases hr <;> rfl

/-- With `nand` read as itself, the chain computes every operation that is not ranked too high: by the induction hypothesis the
operations in the recipe are computed, and the recipe computes the operation (`recipe_computes`). -/
theorem derive_nand {fuel : Nat} {op : Op} (h : op.rank < fuel) (v : Ports Bit op.inputWidths) :
    derive id Gate.nand fuel op v = op.bits v := by
  induction fuel generalizing op with
  | zero => exact absurd h (Nat.not_lt_zero _)
  | succ fuel ih =>
    cases hr : recipe op with
    | none =>
      obtain rfl := recipe_eq_none.1 hr
      exact congrArg some (bits_one _).symm
    | some n =>
      have chain : n.evalWith id (derive id Gate.nand fuel) v.lists = n.evalWith id Op.bits v.lists :=
        evalWith_congr fun i hi args => ih (Nat.lt_of_lt_of_le (rank_lt_of_mem_recipe hr i hi) (Nat.le_of_lt_succ h)) args
      rw [derive_succ hr, chain, recipe_computes v hr, evalOp_lists, Op.bits]
      simp

/-- Settles O47 (`derive_nand`): the recipes nest less deep than the chain goes. -/
theorem theDerivationChainComputesEveryOperation : Obligations.TheDerivationChainComputesEveryOperation := fun op v =>
  derive_nand (rank_lt_recipeDepth op) v

/-! What the recipes are made of. -/

/-- Settles O50: the instances of each recipe, counted. -/
theorem directInstanceTable : Obligations.DirectInstanceTable := by
  intro op sub
  cases op <;> cases sub <;> decide +kernel

end Sys2Proof
end

