-- ==== Sys2Proof/Proofs/Expansions.lean ====
section
/-! The full expansion of an operation into `nand` cells (44_laws_and_structure.md R142): whatever wires carry, its flat netlist
gives what the derivation chain gives; it exists, and has as many cells as the NAND count. -/

namespace Sys2Proof

/-! Reading wires through wires: drivers stand for drivers, which carry values. -/

theorem readAll_getElem? {δ α : Type} {f : δ → Option α} {l : List δ} {as : List α} (h : readAll f l = some as) {j : Nat}
    {d : δ} (hd : l[j]? = some d) : ∃ a, f d = some a ∧ as[j]? = some a := by
  have entry := congrArg (·[j]?) (readAll_eq_some.1 h)
  simp only [List.getElem?_map, hd, Option.map_some] at entry
  obtain ⟨a, ha, hf⟩ := Option.map_eq_some_iff.1 entry.symm
  exact ⟨a, hf.symm, ha⟩

/-- Where `f` takes each wire to one whose value under `g` is its own under `k`, it takes rows of wires to such rows. -/
theorem readAll_through {δ ε α : Type} {f : δ → Option ε} {g : ε → Option α} {k : δ → Option α}
    (through : ∀ d e, f d = some e → ∃ a, g e = some a ∧ k d = some a) {l : List δ} {es : List ε}
    (h : readAll f l = some es) : ∃ as, readAll g es = some as ∧ readAll k l = some as := by
  induction l generalizing es with
  | nil => cases h; exact ⟨[], rfl, rfl⟩
  | cons d rest ih =>
    rw [readAll_cons, Option.bind_eq_some_iff] at h
    obtain ⟨e, he, h⟩ := h
    obtain ⟨es, hes, rfl⟩ := Option.map_eq_some_iff.1 h
    obtain ⟨a, hga, hka⟩ := through d e he
    obtain ⟨as, hgas, hkas⟩ := ih hes
    exact ⟨a :: as, readAll_cons_some hga hgas, readAll_cons_some hka hkas⟩

theorem readPorts_through {δ ε α : Type} {ws : List Nat} {f : δ → Option ε} {g : ε → Option α} {k : δ → Option α}
    (through : ∀ d e, f d = some e → ∃ a, g e = some a ∧ k d = some a) {p : Ports δ ws} {q : Ports ε ws}
    (h : readPorts f p = some q) : ∃ v, readPorts g q = some v ∧ readPorts k p = some v := by
  obtain ⟨as, hg, hk⟩ := readAll_through (fun _ _ => readAll_through through) (readPorts_eq_some.1 h)
  exact ⟨⟨as, by rw [readAll_widths hk, p.widths]⟩, readPorts_eq_some.2 hg, readPorts_eq_some.2 hk⟩

theorem readAll_concat {δ α : Type} {f : δ → Option α} {l : List δ} {d : δ} {as : List α} {a : α}
    (h : readAll f l = some as) (hd : f d = some a) : readAll f (l ++ [d]) = some (as ++ [a]) := by
  rw [readAll_eq_some] at h ⊢
  simp [h, hd]

theorem readAll_flatten {δ α : Type} {f : δ → Option α} {ls : List (List δ)} {as : List (List α)}
    (h : readAll (readAll f) ls = some as) : readAll f ls.flatten = some as.flatten := by
  induction ls generalizing as with
  | nil => cases h; rfl
  | cons l rest ih =>
    rw [readAll_cons, Option.bind_eq_some_iff] at h
    obtain ⟨a, hl, h⟩ := h
    obtain ⟨as, hrest, rfl⟩ := Option.map_eq_some_iff.1 h
    have later := ih hrest
    rw [readAll_eq_some] at hl later ⊢
    rw [List.flatten_cons, List.flatten_cons, List.map_append, List.map_append, hl, later]

section
variable {α : Type} {const : Bit → α} {P : List (List α)}

/-- An entry of rows of wires that carry `values` carries the entry of `values`. -/
theorem read_entry {C values : List (List α)} {lists : List (List Driver)} {k j : Nat} {e : Driver}
    (h : readAll (readAll (Driver.read const P C)) lists = some values) (he : bitAt lists k j = some e) :
    ∃ a, e.read const P C = some a ∧ bitAt values k j = some a := by
  obtain ⟨ds, hds, hj⟩ := bitAt_eq_some.1 he
  obtain ⟨as, has, hk⟩ := readAll_getElem? h hds
  obtain ⟨a, ha, hja⟩ := readAll_getElem? has hj
  exact ⟨a, ha, bitAt_eq_some.2 ⟨as, hk, hja⟩⟩

/-- The wires `args` and `wires` carry `vs` and `ws`, so what a driver into them stands at carries what it reads there. -/
theorem read_through {C vs ws : List (List α)} {args wires : List (List Driver)}
    (hargs : readAll (readAll (Driver.read const P C)) args = some vs)
    (hwires : readAll (readAll (Driver.read const P C)) wires = some ws) (d e : Driver)
    (h : d.read Driver.const args wires = some e) :
    ∃ a, e.read const P C = some a ∧ d.read const vs ws = some a := by
  cases d with
  | const b => cases h; exact ⟨const b, rfl, rfl⟩
  | port p j => exact read_entry hargs h
  | cell k j => exact read_entry hwires h

/-- Wires go on carrying what they carry when more cells stand behind. -/
theorem readAll_append {C more : List (List α)} {ds : List Driver} {as : List α}
    (h : readAll (Driver.read const P C) ds = some as) : readAll (Driver.read const P (C ++ more)) ds = some as :=
  readAll_mono (fun _ _ => read_append) h

theorem readAll_readAll_append {C more : List (List α)} {lists : List (List Driver)} {vs : List (List α)}
    (h : readAll (readAll (Driver.read const P C)) lists = some vs) :
    readAll (readAll (Driver.read const P (C ++ more))) lists = some vs :=
  readAll_mono (fun _ _ => readAll_append) h

end

/-! The simulation. -/

section
variable {α : Type} (const : Bit → α) (nandOn : α → α → α) (P : List (List α))

/-- `expand` makes of an operation on wires cells that give, on these wires' values, what `values` gives: behind any cells
`made` that have the values `C`, whatever the wires `args` carry there. -/
def Simulates (expand : (op : Op) → List Instr → Ports Driver op.inputWidths → Option (List Instr × List Driver))
    (values : (op : Op) → Ports α op.inputWidths → Option (List α)) : Prop :=
  ∀ op made args made' out C v, expand op made args = some (made', out) →
    evalCells const (nandOnly nandOn) P made [] = some C → readPorts (Driver.read const P C) args = some v →
    ∃ more outs, evalCells const (nandOnly nandOn) P made' [] = some (C ++ more) ∧
      readAll (Driver.read const P (C ++ more)) out = some outs ∧ values op v = some outs

variable {const nandOn P}

/-- The instances of a recipe, expanded in turn, simulate their evaluation. -/
theorem Simulates.insts {expand : (op : Op) → List Instr → Ports Driver op.inputWidths → Option (List Instr × List Driver)}
    {values : (op : Op) → Ports α op.inputWidths → Option (List α)} (sim : Simulates const nandOn P expand values)
    {args wires wires' : List (List Driver)} {vs ws C : List (List α)} {insts made made' : List Instr}
    (h : expandInsts expand args insts made wires = some (made', wires'))
    (hC : evalCells const (nandOnly nandOn) P made [] = some C)
    (hargs : readAll (readAll (Driver.read const P C)) args = some vs)
    (hwires : readAll (readAll (Driver.read const P C)) wires = some ws) :
    ∃ more ws', evalCells const (nandOnly nandOn) P made' [] = some (C ++ more) ∧
      readAll (readAll (Driver.read const P (C ++ more))) wires' = some ws' ∧
      evalCells const values vs insts ws = some ws' := by
  induction insts generalizing made wires C ws with
  | nil =>
    cases h
    exact ⟨[], ws, by rwa [List.append_nil], by rwa [List.append_nil], rfl⟩
  | cons i rest ih =>
    simp only [expandInsts] at h
    split at h
    · rename_i pins hpins
      split at h
      · rename_i made₁ out hout
        obtain ⟨v, hv, hpinv⟩ := readPorts_through (read_through hargs hwires) hpins
        obtain ⟨more, outs, hC₁, houts, hvalues⟩ := sim i.op made pins made₁ out C v hout hC hv
        have hwires₁ : readAll (readAll (Driver.read const P (C ++ more))) (wires ++ [out]) = some (ws ++ [outs]) :=
          readAll_concat (readAll_readAll_append hwires) houts
        obtain ⟨more', ws', hC', hws', hrest⟩ := ih h hC₁ (readAll_readAll_append hargs) hwires₁
        rw [List.append_assoc] at hC' hws'
        exact ⟨more ++ more', ws', hC', hws', evalCells_cons_eq_some.2 ⟨v, outs, hpinv, hvalues, hrest⟩⟩
      · cases h
    · cases h

/-- R142: the recipe of an operation, expanded, and the wires of its output. -/
theorem expandOp_succ {fuel : Nat} {op : Op} {n : Netlist} (hr : recipe op = some n) (made : List Instr)
    (args : Ports Driver op.inputWidths) :
    expandOp (fuel + 1) op made args =
      (expandInsts (expandOp fuel) args.lists n.insts made []).bind fun r =>
        (readAll (readAll (Driver.read Driver.const args.lists r.2)) (n.outputs.map OutPort.drivers)).map fun outs =>
          (r.1, outs.flatten) := by
  have body : expandOp (fuel + 1) op made args =
      match expandInsts (expandOp fuel) args.lists n.insts made [] with
      | some (made', cells) =>
        match readAll (fun o => readAll (Driver.read Driver.const args.lists cells) o.drivers) n.outputs with
        | some outs => some (made', outs.flatten)
        | none => none
      | none => none := by
    cases op <;> cases hr <;> rfl
  rw [body]
  rcases expandInsts (expandOp fuel) args.lists n.insts made [] with _ | ⟨made', cells⟩
  · rfl
  · simp only [readAll_map, Option.bind_some]
    cases readAll (fun o => readAll (Driver.read Driver.const args.lists cells) o.drivers) n.outputs <;> rfl

theorem expandOp_succ_eq_some {fuel : Nat} {op : Op} {n : Netlist} (hr : recipe op = some n) {made made' : List Instr}
    {args : Ports Driver op.inputWidths} {out : List Driver} :
    expandOp (fuel + 1) op made args = some (made', out) ↔
      ∃ cells outs, expandInsts (expandOp fuel) args.lists n.insts made [] = some (made', cells) ∧
        readAll (readAll (Driver.read Driver.const args.lists cells)) (n.outputs.map OutPort.drivers) = some outs ∧
        outs.flatten = out := by
  simp only [expandOp_succ hr, Option.bind_eq_some_iff, Option.map_eq_some_iff, Prod.exists, Prod.mk.injEq]
  constructor
  · rintro ⟨_, cells, hinsts, outs, houts, rfl, hout⟩
    exact ⟨cells, outs, hinsts, houts, hout⟩
  · rintro ⟨cells, outs, hinsts, houts, hout⟩
    exact ⟨_, cells, hinsts, outs, houts, rfl, hout⟩

/-- R142: an expansion simulates the derivation chain. -/
theorem simulates_expandOp (fuel : Nat) : Simulates const nandOn P (expandOp fuel) (derive const nandOn fuel) := by
  induction fuel with
  | zero => exact fun _ _ _ _ _ _ _ h => absurd h nofun
  | succ fuel ih =>
    intro op made args made' out C v h hC hv
    cases hr : recipe op with
    | none =>
      obtain rfl := recipe_eq_none.1 hr
      cases h
      have pins : (Instr.ofPorts .nand args).ports = args := ports_ext (op_args_of_ofPorts .nand args).2
      have cell : evalCells const (nandOnly nandOn) P (made ++ [Instr.ofPorts .nand args]) [] =
          some (C ++ [[nandOn (v.one 0) (v.one 1)]]) := by
        rw [evalCells_append hC]
        exact evalCells_cons_of (hv.symm ▸ congrArg _ pins) rfl
      refine ⟨_, _, cell, ?_, rfl⟩
      simp [readAll, Driver.read, bitAt, ← evalCells_length hC]
    | some n =>
      obtain ⟨wires, outs, hinsts, houts, rfl⟩ := (expandOp_succ_eq_some hr).1 h
      obtain ⟨more, ws, hmore, hwires, hvalues⟩ := ih.insts hinsts hC (readPorts_eq_some.1 hv) rfl
      obtain ⟨as, has, hvs⟩ := readAll_through (fun _ _ => readAll_through
        (read_through (readAll_readAll_append (readPorts_eq_some.1 hv)) hwires)) houts
      refine ⟨more, as.flatten, hmore, readAll_flatten has, ?_⟩
      rw [readAll_map] at hvs
      rw [derive_succ hr, Netlist.evalWith, hvalues]
      simp only [hvs, Option.map_some]

end

/-! The expansion of an operation on its own ports. -/

/-- The drivers of a row of ports carry what the ports carry. -/
theorem readAll_portDrivers {α : Type} {const : Bit → α} {before lists : List (List α)} :
    readAll (readAll (Driver.read const (before ++ lists) [])) (portDrivers before.length (lists.map List.length)) =
      some lists := by
  induction lists generalizing before with
  | nil => rfl
  | cons l rest ih =>
    refine readAll_cons_some (readAll_portPins (by simp) rfl) ?_
    have later := ih (before := before ++ [l])
    rwa [List.append_assoc, List.length_append] at later

/-- R142: an operation's own pins carry what its ports carry. -/
theorem readPorts_ownPins {α : Type} {const : Bit → α} {op : Op} (v : Ports α op.inputWidths) :
    readPorts (Driver.read const v.lists []) op.ownPins = some v := by
  have own := readAll_portDrivers (const := const) (before := []) (lists := v.lists)
  rw [v.widths] at own
  exact readPorts_eq_some.2 own

/-- What `expansion` answers is the expansion on the operation's own pins. -/
theorem expansion_eq_some {op : Op} {n : Netlist} :
    expansion op = some n ↔
      ∃ insts out, expandOp recipeDepth op [] op.ownPins = some (insts, out) ∧ n = op.netlist insts out := by
  unfold expansion
  rcases expandOp recipeDepth op [] op.ownPins with _ | ⟨insts, out⟩
  · simp
  · simp [eq_comm]

/-- R142: the cells of an expansion have values, and the wires of its output carry what the derivation chain gives. -/
theorem expansion_values {op : Op} {insts : List Instr} {out : List Driver}
    (h : expandOp recipeDepth op [] op.ownPins = some (insts, out)) {α : Type} (const : Bit → α) (nandOn : α → α → α)
    (v : Ports α op.inputWidths) :
    ∃ cells outs, evalCells const (nandOnly nandOn) v.lists insts [] = some cells ∧
      readAll (Driver.read const v.lists cells) out = some outs ∧ derive const nandOn recipeDepth op v = some outs := by
  obtain ⟨cells, outs, hcells, houts, hderive⟩ :=
    simulates_expandOp recipeDepth op [] op.ownPins insts out [] v h rfl (readPorts_ownPins v)
  exact ⟨cells, outs, hcells, houts, hderive⟩

/-- Settles O49: the flat netlist's cells simulate the chain (`simulates_expandOp`), for any kind of value. -/
theorem expansionsFollowTheDerivationChain : Obligations.ExpansionsFollowTheDerivationChain := by
  intro op n hn α const nandOn v
  obtain ⟨insts, out, h, rfl⟩ := expansion_eq_some.1 hn
  obtain ⟨cells, outs, hcells, houts, hderive⟩ := expansion_values h const nandOn v
  rw [hderive]
  exact evalWith_netlist hcells houts

/-! Every operation has an expansion. -/

/-- What an expansion has to do for every operation to have one: to answer, with the output port's width and `count` new
cells. -/
def Expands (expand : (op : Op) → List Instr → Ports Driver op.inputWidths → Option (List Instr × List Driver))
    (count : Op → Nat) (op : Op) : Prop :=
  ∀ made args, ∃ made' out, expand op made args = some (made', out) ∧ out.length = op.output.width ∧
    made'.length = made.length + count op

/-- Well-formed instances of such operations are expanded, each wire to one of its own. -/
theorem expandInsts_of_wellFormed
    {expand : (op : Op) → List Instr → Ports Driver op.inputWidths → Option (List Instr × List Driver)} {count : Op → Nat}
    {args wires : List (List Driver)} {insts made : List Instr} (expands : ∀ i ∈ insts, Expands expand count i.op)
    (wf : instsWellFormed (args.map List.length) (wires.map List.length) insts = true) :
    ∃ made' wires', expandInsts expand args insts made wires = some (made', wires') ∧
      wires'.map List.length = wires.map List.length ++ outWidths insts ∧
      made'.length = made.length + (insts.map fun i => count i.op).sum := by
  induction insts generalizing made wires with
  | nil => exact ⟨made, wires, rfl, by simp [outWidths], rfl⟩
  | cons i rest ih =>
    obtain ⟨first, later⟩ := Bool.and_eq_true_iff.1 wf
    obtain ⟨here, there⟩ := List.forall_mem_cons.1 expands
    obtain ⟨pins, hpins⟩ := readPorts_isSome_of_wellFormed (const := Driver.const) (p := i.ports) first
    obtain ⟨made₁, out, hout, width, cells₁⟩ := here made pins
    obtain ⟨made', wires', hrest, widths, cells'⟩ :=
      ih (made := made₁) (wires := wires ++ [out]) there (by simpa [width] using later)
    refine ⟨made', wires', ?_, by simpa [width, outWidths] using widths, by simp [cells', cells₁, Nat.add_assoc]⟩
    simp only [expandInsts, hpins, hout, hrest]

/-- R28: a recipe's output port has its operation's width. -/
theorem recipe_outputWidth {op : Op} {n : Netlist} (hr : recipe op = some n) :
    ((n.outputs.map OutPort.drivers).map List.length).sum = op.output.width := by
  cases op <;> cases hr <;> decide +kernel

/-- R143: the NAND count goes down by one recipe. -/
theorem nandCountIn_succ {fuel : Nat} {op : Op} {n : Netlist} (hr : recipe op = some n) :
    nandCountIn (fuel + 1) op = (n.insts.map fun i => nandCountIn fuel i.op).sum := by
  simp only [nandCountIn, hr]

/-- R142, R143: an operation that is not ranked too high has an expansion, of as many cells as its NAND count. -/
theorem expands_expandOp {fuel : Nat} {op : Op} (h : op.rank < fuel) : Expands (expandOp fuel) (nandCountIn fuel) op := by
  induction fuel generalizing op with
  | zero => exact absurd h (Nat.not_lt_zero _)
  | succ fuel ih =>
    intro made args
    cases hr : recipe op with
    | none =>
      obtain rfl := recipe_eq_none.1 hr
      exact ⟨_, _, rfl, rfl, List.length_append⟩
    | some n =>
      obtain ⟨inputs, wf⟩ := recipe_wellFormed hr
      obtain ⟨wfInsts, wfOuts⟩ := Bool.and_eq_true_iff.1 wf
      have ports : args.lists.map List.length = n.inputWidths := by rw [args.widths, Netlist.inputWidths, inputs]; rfl
      obtain ⟨made', wires, hinsts, widths, cells⟩ := expandInsts_of_wellFormed (args := args.lists) (wires := [])
        (made := made) (fun i hi => ih (Nat.lt_of_lt_of_le (rank_lt_of_mem_recipe hr i hi) (Nat.le_of_lt_succ h)))
        (by rw [ports]; exact wfInsts)
      obtain ⟨outs, houts⟩ := readPorts_isSome_of_wellFormed (const := Driver.const) (ports := args.lists) (cells := wires)
        (p := ⟨n.outputs.map OutPort.drivers, rfl⟩) (by rw [ports, widths]; simpa using wfOuts)
      refine ⟨made', outs.lists.flatten, (expandOp_succ_eq_some hr).2
        ⟨wires, outs.lists, hinsts, readPorts_eq_some.1 houts, rfl⟩, ?_, by rw [cells, nandCountIn_succ hr]⟩
      rw [List.length_flatten, outs.widths, recipe_outputWidth hr]

/-- An operation that `nandOnly` applies is `nand`, and gives one wire. -/
theorem nandOnly_eq_some {α : Type} {nandOn : α → α → α} {op : Op} {args : Ports α op.inputWidths} {out : List α}
    (h : nandOnly nandOn op args = some out) : op = .nand ∧ out.length = op.output.width := by
  cases op <;> cases h
  exact ⟨rfl, rfl⟩

/-- Settles O48: the expansion exists and is counted (`expands_expandOp`); as its cells have values under `nand` alone
(`expansion_values`), all of them are `nand` and each reads only what stands before it. -/
theorem expansionsAreNandOnly : Obligations.ExpansionsAreNandOnly := by
  intro op
  obtain ⟨insts, out, h, -, count⟩ := expands_expandOp (rank_lt_recipeDepth op) [] op.ownPins
  refine ⟨_, expansion_eq_some.2 ⟨insts, out, h, rfl⟩, rfl, ?_, count.trans (Nat.zero_add _), ?_⟩
  all_goals obtain ⟨cells, outs, hcells, houts, -⟩ := expansion_values h id Gate.nand (Ports.ofFn _ fun _ => false)
  · intro i hi
    obtain ⟨args, out, happly⟩ := applied_of_evalCells hcells i hi
    exact (nandOnly_eq_some happly).1
  · obtain ⟨wfInsts, widths⟩ := wellFormed_of_evalCells (fun op args out h => (nandOnly_eq_some h).2) hcells
    have wfOut := wellFormed_of_readAll houts
    rw [Ports.widths] at wfInsts wfOut
    rw [widths] at wfOut
    exact Bool.and_eq_true_iff.2 ⟨wfInsts, (Bool.and_true _).trans wfOut⟩

end Sys2Proof
end

