-- ==== Sys2Proof/Proofs/Depths.lean ====
section
/-! NAND counts, depths and settling-time bounds (44_laws_and_structure.md R143 to R145, 70_reset_and_hazards.md R188). -/

namespace Sys2Proof

/-- Settles O51: the recursion over the recipes, evaluated. -/
theorem nandCountTable : Obligations.NandCountTable := by
  unfold Obligations.NandCountTable
  decide +kernel

/-- Settles O52: path lengths along the recipes, evaluated. -/
theorem depthTable : Obligations.DepthTable := by
  unfold Obligations.DepthTable
  decide +kernel

/-! R144: rows of the table, by index. -/

theorem depth_or8way : depth .or8way = some 6 := Option.some.inj (congrArg (·[12]?) depthTable.1)
theorem depth_add16 : depth .add16 = some 94 := Option.some.inj (congrArg (·[19]?) depthTable.1)
theorem depth_inc16 : depth .inc16 = some 94 := Option.some.inj (congrArg (·[20]?) depthTable.1)

/-- R145: what the sixteen stages of `add16` carry: the depth of the sum, and that of the carry, which is six cells more than the
stage below. -/
theorem add16Stages_eq :
    add16Stages =
      some ((List.range 16).map fun i => [some (if i = 0 then 8 else 6 * i + 4), some (6 * (i + 1))]) := by
  decide +kernel

/-- Settles O53: the carry is the second wire of each stage (`add16Stages_eq`). -/
theorem carryChainGrowsBySixCellsAStage : Obligations.CarryChainGrowsBySixCellsAStage :=
  ⟨_, add16Stages_eq, by simp, fun i hi => ⟨some (if i = 0 then 8 else 6 * i + 4), by simp [hi]⟩⟩

/-- R110: the linear chain joins the same eight Bits, one after another. -/
theorem gate_or8way_eq_chain (v : Bits8) :
    Gate.or8way v =
      Gate.or (Gate.or (Gate.or (Gate.or (Gate.or (Gate.or (Gate.or (Bus.at v 0) (Bus.at v 1)) (Bus.at v 2)) (Bus.at v 3))
        (Bus.at v 4)) (Bus.at v 5)) (Bus.at v 6)) (Bus.at v 7) := by
  simp only [Gate.or8way, gate_or, Bool.or_assoc]

/-- R110: the value of the linear chain. -/
theorem linearOr8_value (v : Bits8) : linearOr8.evalWith id Op.bits [v.bits] = some [[Gate.or8way v]] := by
  rw [gate_or8way_eq_chain]
  exact evalWith_netlist (evalCells_step rfl (evalOp_or _ _) <| evalCells_step rfl (evalOp_or _ _) <|
    evalCells_step rfl (evalOp_or _ _) <| evalCells_step rfl (evalOp_or _ _) <| evalCells_step rfl (evalOp_or _ _) <|
    evalCells_step rfl (evalOp_or _ _) <| evalCells_step rfl (evalOp_or _ _) rfl) rfl

/-- Settles O54: the chain's value is that of the tree by associativity (`linearOr8_value`); structure, count and depth are
evaluated. -/
theorem theLinearChainIsNotOr8way : Obligations.TheLinearChainIsNotOr8way :=
  ⟨by decide +kernel, linearOr8_value, by decide +kernel, by decide +kernel, depth_or8way⟩

/-- R144: every operation has a depth of at least one cell, and none is deeper than the adders. -/
theorem depth_bounds {op : Op} {d : Nat} (h : depth op = some d) : 0 < d ∧ d ≤ 94 := by
  have row := List.mem_map_of_mem (f := depth) (op_mem_all op)
  rw [depthTable.1, h, List.mem_map] at row
  obtain ⟨e, he, hed⟩ := row
  obtain rfl := Option.some.inj hed
  clear h hed
  revert e
  decide

/-- R188: a bound grows with the number of cells. -/
theorem settlingBound_mono {m n : Nat} (h : m ≤ n) : settlingBound m ≤ settlingBound n :=
  nsmul_le_nsmul_left zero_le h

/-- Settles O55: a bound is that many delays, and grows with the depth (`settlingBound_mono`), which is at most 94
(`depth_bounds`). -/
theorem noSettlingBoundExceedsTheAdders : Obligations.NoSettlingBoundExceedsTheAdders :=
  ⟨nsmul_eq_mul 94 Config.tNand, depth_add16, depth_inc16, fun _ _ h => settlingBound_mono (depth_bounds h).2⟩

end Sys2Proof
end

