-- ==== Sys2Proof/Proofs/Bounds.lean ====
section
/-! The settling-time bound of a netlist (70_reset_and_hazards.md R188): along paths of instances the depths add up to the latest
time at which an instance's output settles, and no further. -/

namespace Sys2Proof

/-! The largest of a list of numbers. -/

theorem foldl_max_le_iff {l : List Nat} {m b : Nat} : l.foldl max m ≤ b ↔ m ≤ b ∧ ∀ x ∈ l, x ≤ b := by
  induction l generalizing m with
  | nil => simp
  | cons x rest ih => simp [ih, and_assoc]

theorem le_foldl_max {l : List Nat} {x : Nat} (h : x ∈ l) : x ≤ l.foldl max 0 :=
  (foldl_max_le_iff.1 le_rfl).2 x h

theorem foldl_max_eq_or_mem (l : List Nat) (m : Nat) : l.foldl max m = m ∨ l.foldl max m ∈ l := by
  induction l generalizing m with
  | nil => exact .inl rfl
  | cons x rest ih =>
    rw [List.foldl_cons]
    rcases ih (max m x) with h | h
    · rw [h]
      rcases max_choice m x with hm | hx
      · exact .inl hm
      · exact .inr (by simp [hx])
    · exact .inr (List.mem_cons_of_mem x h)

/-- What `readAll` answers is what the entries read as. -/
theorem mem_readAll {δ α : Type} {f : δ → Option α} {l : List δ} {as : List α} (h : readAll f l = some as) {a : α} :
    a ∈ as ↔ ∃ d ∈ l, f d = some a := by
  have entries : some a ∈ l.map f ↔ some a ∈ as.map some := by rw [readAll_eq_some.1 h]
  simpa using entries.symm

/-! Settling times, in cells. -/

/-- R188: an instance settles as many cells after the latest of its inputs as its operation is deep. -/
def arrival (op : Op) (args : Ports Nat op.inputWidths) : Option (List Nat) :=
  (depth op).map fun d => List.replicate op.output.width (args.lists.flatten.foldl max 0 + d)

/-- The bound is the latest arrival, inputs arriving at 0. -/
theorem settlingDepth_eq (n : Netlist) :
    n.settlingDepth =
      (evalCells (fun _ => 0) arrival (n.inputs.map fun p => List.replicate p.width 0) n.insts []).map fun cells =>
        cells.flatten.foldl max 0 := rfl

/-- The output pins of instance `k` all settle at `t`. -/
def SettlesAt (cells : List (List Nat)) (k t : Nat) : Prop := ∃ w, 0 < w ∧ cells[k]? = some (List.replicate w t)

/-- What is read at an output pin is the time at which its instance settles. -/
theorem SettlesAt.eq_of_bitAt {cells : List (List Nat)} {k j t x : Nat} (h : SettlesAt cells k t)
    (hx : bitAt cells k j = some x) : x = t := by
  obtain ⟨w, -, hk⟩ := h
  obtain ⟨v, hv, hj⟩ := bitAt_eq_some.1 hx
  obtain rfl : List.replicate w t = v := Option.some.inj (hk.symm.trans hv)
  exact (List.eq_of_mem_replicate (List.mem_of_getElem? hj))

theorem SettlesAt.mem {cells : List (List Nat)} {k t : Nat} (h : SettlesAt cells k t) : t ∈ cells.flatten := by
  obtain ⟨w, hw, hk⟩ := h
  exact List.mem_flatten.2 ⟨_, List.mem_of_getElem? hk, List.mem_replicate.2 ⟨hw.ne', rfl⟩⟩

theorem SettlesAt.unique {cells : List (List Nat)} {k t u : Nat} (h : SettlesAt cells k t) (h' : SettlesAt cells k u) :
    t = u := by
  obtain ⟨w, hw, hk⟩ := h
  exact h'.eq_of_bitAt (j := 0) (bitAt_eq_some.2 ⟨_, hk, by simp [hw]⟩)

/-- R28: every operation has an output pin. -/
theorem outputWidth_pos (op : Op) : 0 < op.output.width := by
  cases op <;> decide

/-- Instance `l` reads an output pin of instance `k`. -/
def Reads (insts : List Instr) (l k : Nat) : Prop :=
  ∃ i, insts[l]? = some i ∧ ∃ port ∈ i.args, ∃ j, Driver.cell k j ∈ port

section
variable {insts : List Instr} {ports cells : List (List Nat)}
  (value : evalCells (fun _ => 0) arrival ports insts [] = some cells) (inputs : ∀ l ∈ ports, ∀ x ∈ l, x = 0)
include value

/-- What an instance reads: its pins at some times, and it settles its depth behind the latest of these. -/
theorem settlesAt_of_getElem? {k : Nat} {i : Instr} (hi : insts[k]? = some i) :
    ∃ d times, depth i.op = some d ∧
      readAll (Driver.read (fun _ => 0) ports cells) i.args.flatten = some times ∧
      SettlesAt cells k (times.foldl max 0 + d) := by
  obtain ⟨args, out, hargs, hout, hk⟩ := evalCells_getElem? value hi
  obtain ⟨d, hd, rfl⟩ := Option.map_eq_some_iff.1 hout
  rw [List.length_nil, Nat.zero_add] at hk
  exact ⟨d, _, hd, readAll_flatten (readPorts_eq_some.1 hargs), _, outputWidth_pos i.op, hk⟩

/-- A cell is an instance's, and settles at some time. -/
theorem settlesAt_of_bitAt {k j t : Nat} (h : bitAt cells k j = some t) : k < insts.length ∧ SettlesAt cells k t := by
  obtain ⟨v, hv, -⟩ := bitAt_eq_some.1 h
  have hk : k < insts.length := by
    rw [← evalCells_length value]
    exact (List.getElem?_eq_some_iff.1 hv).1
  obtain ⟨d, times, -, -, settles⟩ := settlesAt_of_getElem? value (List.getElem?_eq_getElem hk)
  exact ⟨hk, settles.eq_of_bitAt h ▸ settles⟩

/-- An instance that another one reads is there, and settles at least the other one's depth before it. -/
theorem settlesAt_of_reads {k l : Nat} (h : Reads insts l k) :
    k < insts.length ∧ ∃ i d t u, insts[l]? = some i ∧ depth i.op = some d ∧ SettlesAt cells k t ∧
      SettlesAt cells l u ∧ t + d ≤ u := by
  obtain ⟨i, hi, port, hport, j, hj⟩ := h
  obtain ⟨d, times, hd, htimes, settles⟩ := settlesAt_of_getElem? value hi
  have pin : Driver.cell k j ∈ i.args.flatten := List.mem_flatten.2 ⟨port, hport, hj⟩
  obtain ⟨t, ht⟩ := Option.isSome_iff_exists.1 (readAll_isSome.1 (Option.isSome_of_eq_some htimes) _ pin)
  obtain ⟨hk, earlier⟩ := settlesAt_of_bitAt value ht
  have latest := le_foldl_max ((mem_readAll htimes).2 ⟨_, pin, ht⟩)
  exact ⟨hk, i, d, t, _, hi, hd, earlier, settles, Nat.add_le_add_right latest d⟩

include inputs in
/-- An instance settles its own depth after 0, or after an instance that it reads. -/
theorem settlesAt_cases {k t : Nat} {i : Instr} (hi : insts[k]? = some i) (settles : SettlesAt cells k t) :
    ∃ d, depth i.op = some d ∧ (t = d ∨ ∃ c u, Reads insts k c ∧ c < insts.length ∧ SettlesAt cells c u ∧ t = u + d) := by
  obtain ⟨d, times, hd, htimes, settles'⟩ := settlesAt_of_getElem? value hi
  refine ⟨d, hd, ?_⟩
  rw [settles.unique settles']
  rcases foldl_max_eq_or_mem times 0 with h | h
  · exact .inl (by rw [h, Nat.zero_add])
  · obtain ⟨driver, hdriver, reads⟩ := (mem_readAll htimes).1 h
    cases driver with
    | const b => exact .inl (by rw [← Option.some.inj reads, Nat.zero_add])
    | port p j =>
      obtain ⟨l, hl, hj⟩ := bitAt_eq_some.1 reads
      exact .inl (by rw [inputs l (List.mem_of_getElem? hl) _ (List.mem_of_getElem? hj), Nat.zero_add])
    | cell c j =>
      obtain ⟨hc, earlier⟩ := settlesAt_of_bitAt value reads
      obtain ⟨port, hport, hj⟩ := List.mem_flatten.1 hdriver
      exact .inr ⟨c, _, ⟨i, hi, port, hport, j, hj⟩, hc, earlier, rfl⟩

/-! Paths. -/

/-- The depth of the operation of instance `k`. -/
def depthAt (insts : List Instr) (k : Nat) : Option Nat := (insts[k]?).bind fun i => depth i.op

/-- Along a path the depths add up to no more than the latest time at which an instance settles. -/
theorem sum_depths_le {k t : Nat} {rest : List Nat} (path : PathOfInstances insts (k :: rest))
    (settles : SettlesAt cells k t) :
    ∃ depths : List Nat, rest.map (depthAt insts) = depths.map some ∧ t + depths.sum ≤ cells.flatten.foldl max 0 := by
  induction rest generalizing k t with
  | nil => exact ⟨[], rfl, le_foldl_max settles.mem⟩
  | cons l rest ih =>
    obtain ⟨reads, later⟩ := path
    obtain ⟨-, i, d, t', u, hi, hd, earlier, settles', order⟩ := settlesAt_of_reads value reads
    obtain ⟨depths, hdepths, bound⟩ := ih later settles'
    refine ⟨d :: depths, by simp [hdepths, depthAt, hi, hd], ?_⟩
    rw [settles.unique earlier, List.sum_cons]
    omega

/-- The first instance of a path is there. -/
theorem path_head_lt {k : Nat} {rest : List Nat} (path : PathOfInstances insts (k :: rest)) : k < insts.length := by
  cases rest with
  | nil => exact path
  | cons l rest => exact (settlesAt_of_reads value path.1).1

omit value in
/-- A path goes on with an instance that reads its last one. -/
theorem path_concat {path : List Nat} {c k : Nat} (h : PathOfInstances insts (path ++ [c])) (reads : Reads insts k c)
    (hk : k < insts.length) : PathOfInstances insts (path ++ [c] ++ [k]) := by
  induction path with
  | nil => exact ⟨reads, hk⟩
  | cons x path ih =>
    cases path with
    | nil => exact ⟨h.1, ih h.2⟩
    | cons y path => exact ⟨h.1, ih h.2⟩

include inputs in
/-- To the time at which an instance settles there is a path along which the depths add up to it: the one before it ends at the
instance that is read last. -/
theorem exists_path {k t : Nat} (hk : k < insts.length) (settles : SettlesAt cells k t) :
    ∃ (path depths : List Nat), PathOfInstances insts (path ++ [k]) ∧
      (path ++ [k]).map (depthAt insts) = depths.map some ∧ depths.sum = t := by
  induction t using Nat.strongRecOn generalizing k with
  | ind t ih =>
    have hi := List.getElem?_eq_getElem hk
    obtain ⟨d, hd, rfl | ⟨c, u, reads, hc, earlier, rfl⟩⟩ := settlesAt_cases value inputs hi settles
    · exact ⟨[], [t], hk, by simp [depthAt, hi, hd], by simp⟩
    · have later : u < u + d := Nat.lt_add_of_pos_right (depth_bounds hd).1
      obtain ⟨path, depths, hpath, hdepths, hsum⟩ := ih u later hc earlier
      refine ⟨path ++ [c], depths ++ [d], path_concat hpath reads hk, ?_, by simp [hsum]⟩
      rw [List.map_append, hdepths, List.map_append]
      simp [depthAt, hi, hd]

end

/-- Settles O56: along a path the depths add up to no more than the latest arrival (`sum_depths_le`), and to the latest arrival
there is a path (`exists_path`); where no instance arrives after 0 it is the empty one. -/
theorem netlistBoundsCountEveryPath : Obligations.NetlistBoundsCountEveryPath := by
  intro n bound h
  rw [settlingDepth_eq] at h
  obtain ⟨cells, value, rfl⟩ := Option.map_eq_some_iff.1 h
  refine ⟨fun path hpath => ?_, ?_⟩
  · cases path with
    | nil => exact ⟨[], rfl, Nat.zero_le _⟩
    | cons k rest =>
      obtain ⟨i, hi⟩ : ∃ i, n.insts[k]? = some i := ⟨_, List.getElem?_eq_getElem (path_head_lt value hpath)⟩
      obtain ⟨d, times, hd, -, settles⟩ := settlesAt_of_getElem? value hi
      obtain ⟨depths, hdepths, hsum⟩ := sum_depths_le value hpath settles
      refine ⟨d :: depths, ?_, by rw [List.sum_cons]; omega⟩
      exact congrArg₂ List.cons (by simp [hi, hd]) hdepths
  · rcases foldl_max_eq_or_mem cells.flatten 0 with latest | latest
    · exact ⟨[], [], trivial, rfl, latest.symm⟩
    · obtain ⟨cell, hcell, ht⟩ := List.mem_flatten.1 latest
      obtain ⟨k, hk⟩ := List.mem_iff_getElem?.1 hcell
      obtain ⟨j, hj⟩ := List.mem_iff_getElem?.1 ht
      obtain ⟨hlt, settles⟩ := settlesAt_of_bitAt value (bitAt_eq_some.2 ⟨cell, hk, hj⟩)
      have inputs : ∀ l ∈ n.inputs.map fun p => List.replicate p.width 0, ∀ x ∈ l, x = 0 := by
        simp +contextual [List.mem_replicate]
      obtain ⟨path, depths, hpath, hdepths, hsum⟩ := exists_path value inputs hlt settles
      exact ⟨path ++ [k], depths, hpath, hdepths, hsum⟩

end Sys2Proof
end

