-- ==== Sys2Proof/Proofs/Texts.lean ====
section
/-! Netlist texts (30_encoding.md R65 to R67): the netlist that a checked text denotes has the meaning that the text's lines have,
for all values of the input ports, and so it is well formed. -/

namespace Sys2Proof

/-! Binding names. -/

/-- Names bound to wires one after another, each of them new: what a bracketed target and a row of input ports do. -/
def bindAll : WireEnv → List (String × List Driver) → Except TextCheck WireEnv
  | env, [] => .ok env
  | env, (n, ds) :: rest =>
    match bindWire env n ds with
    | .ok env' => bindAll env' rest
    | .error c => .error c

theorem bindWire_eq_ok {env env' : WireEnv} {n : String} {ds : List Driver} :
    bindWire env n ds = .ok env' ↔ env.lookup n = none ∧ env' = (n, ds) :: env := by
  unfold bindWire
  cases env.lookup n <;> simp [eq_comm]

theorem bindAll_cons_eq_ok {env env' : WireEnv} {n : String} {ds : List Driver} {rest : List (String × List Driver)} :
    bindAll env ((n, ds) :: rest) = .ok env' ↔ env.lookup n = none ∧ bindAll ((n, ds) :: env) rest = .ok env' := by
  cases fresh : env.lookup n with
  | none => simp only [bindAll, bindWire_eq_ok.2 ⟨fresh, rfl⟩, true_and]
  | some es => simp [bindAll, bindWire, fresh]

/-- R66 `single_assignment`: names that are bound one after another are new. -/
theorem fresh_of_bindAll {env env' : WireEnv} {pairs : List (String × List Driver)} (h : bindAll env pairs = .ok env') :
    ∀ n ∈ pairs.map Prod.fst, env.lookup n = none := by
  induction pairs generalizing env with
  | nil => simp
  | cons pair rest ih =>
    obtain ⟨fresh, later⟩ := bindAll_cons_eq_ok.1 h
    refine List.forall_mem_cons.2 ⟨fresh, fun n hn => ?_⟩
    have new := ih later n hn
    rw [List.lookup_cons] at new
    split at new
    · cases new
    · exact new

theorem bindBits_eq_ok {env env' : WireEnv} {ns : List String} {ds : List Driver} (h : bindBits env ns ds = .ok env') :
    ns.length = ds.length ∧ bindAll env (ns.zip (ds.map fun d => [d])) = .ok env' := by
  induction ns generalizing env ds with
  | nil =>
    cases ds with
    | nil => exact ⟨rfl, h⟩
    | cons d ds => cases h
  | cons n ns ih =>
    cases ds with
    | nil => cases h
    | cons d ds =>
      rw [bindBits] at h
      split at h
      · rename_i env₁ hn
        obtain ⟨fresh, rfl⟩ := bindWire_eq_ok.1 hn
        obtain ⟨length, later⟩ := ih h
        exact ⟨congrArg (· + 1) length, bindAll_cons_eq_ok.2 ⟨fresh, later⟩⟩
      · cases h

theorem bindInputs_eq {env : WireEnv} {p : Nat} {ports : List TextPort} :
    bindInputs env p ports =
      bindAll env ((ports.map TextPort.name).zip (portDrivers p (ports.map fun port => port.width.toNat))) := by
  induction ports generalizing env p with
  | nil => rfl
  | cons port rest ih =>
    simp only [bindInputs, ih]
    rfl

/-! Names that stand for wires in the netlist and for values in the text. -/

/-- Every name bound to wires is bound to the value that these carry. -/
def EnvCarries (ports cells : List (List Bit)) (env : WireEnv) (values : ValueEnv) : Prop :=
  ∀ n ds, env.lookup n = some ds → ∃ v, readAll (Driver.read id ports cells) ds = some v ∧ values.lookup n = some v

section
variable {ports cells : List (List Bit)} {env env' : WireEnv} {values : ValueEnv}

theorem EnvCarries.append (h : EnvCarries ports cells env values) (more : List (List Bit)) :
    EnvCarries ports (cells ++ more) env values := fun n ds hn =>
  have ⟨v, hv, hvalue⟩ := h n ds hn
  ⟨v, readAll_append hv, hvalue⟩

theorem EnvCarries.cons (h : EnvCarries ports cells env values) {n : String} {ds : List Driver} {v : List Bit}
    (hds : readAll (Driver.read id ports cells) ds = some v) :
    EnvCarries ports cells ((n, ds) :: env) ((n, v) :: values) := by
  intro m es hm
  rw [List.lookup_cons] at hm ⊢
  split at hm
  · cases hm
    exact ⟨v, hds, rfl⟩
  · exact h m es hm

/-- A new name in front of others or behind them is found alike. -/
theorem lookup_middle {β : Type} {front back : List (String × β)} {n : String} {b : β} (new : n ∉ front.map Prod.fst)
    (m : String) : (front ++ (n, b) :: back).lookup m = ((n, b) :: (front ++ back)).lookup m := by
  induction front with
  | nil => rfl
  | cons pair rest ih =>
    obtain ⟨name, c⟩ := pair
    obtain ⟨other, hrest⟩ : n ≠ name ∧ n ∉ rest.map Prod.fst := not_or.1 (mt List.mem_cons.2 new)
    have later := ih hrest
    simp only [List.cons_append, List.lookup_cons] at later ⊢
    rw [later]
    cases hm : m == n with
    | true => rw [eq_of_beq hm, beq_false_of_ne other]
    | false => rfl

/-- Names bound one after another to wires that carry values. -/
theorem EnvCarries.bindAll (h : EnvCarries ports cells env values) {ns : List String} {dss : List (List Driver)}
    {vs : List (List Bit)} (length : ns.length = dss.length) (hbind : bindAll env (ns.zip dss) = .ok env')
    (hvs : readAll (readAll (Driver.read id ports cells)) dss = some vs) :
    EnvCarries ports cells env' (ns.zip vs ++ values) := by
  induction ns generalizing env dss vs values with
  | nil => cases hbind; exact h
  | cons n ns ih =>
    cases dss with
    | nil => cases length
    | cons ds dss =>
      rw [readAll_cons, Option.bind_eq_some_iff] at hvs
      obtain ⟨v, hv, hvs⟩ := hvs
      obtain ⟨vs, hrest, rfl⟩ := Option.map_eq_some_iff.1 hvs
      rw [List.zip_cons_cons] at hbind
      obtain ⟨-, later⟩ := bindAll_cons_eq_ok.1 hbind
      have length' : ns.length = dss.length := Nat.succ.inj length
      have new : n ∉ (ns.zip vs).map Prod.fst := by
        rw [List.map_fst_zip (by rw [length', readAll_length hrest])]
        intro hn
        have bound := fresh_of_bindAll later n (by rwa [List.map_fst_zip length'.le])
        rw [List.lookup_cons_self] at bound
        cases bound
      intro m es hm
      rw [List.zip_cons_cons, List.cons_append, ← lookup_middle new m]
      exact ih (h.cons hv) length' later hrest m es hm

/-- The wires of a bus, each on its own. -/
theorem readAll_singletons {f : Driver → Option Bit} {ds : List Driver} {v : List Bit} (h : readAll f ds = some v) :
    readAll (readAll f) (ds.map fun d => [d]) = some (v.map fun b => [b]) := by
  have single : ∀ d, readAll f [d] = (f d).map fun b => [b] := fun d => by rw [readAll_cons]; cases f d <;> rfl
  rw [readAll_eq_some] at h ⊢
  have each := congrArg (List.map (Option.map fun b => [b])) h
  simpa [Function.comp_def, single] using each

/-- R65 `target`: what a line's target is bound to carries the value of its expression. -/
theorem EnvCarries.bindTarget (h : EnvCarries ports cells env values) {target : TextTarget} {out : List Driver}
    {v : List Bit} (hv : readAll (Driver.read id ports cells) out = some v)
    (hbind : bindTarget env target out = .ok env') : EnvCarries ports cells env' (bindValue values target v) := by
  cases target with
  | whole n =>
    obtain ⟨-, rfl⟩ := bindWire_eq_ok.1 hbind
    exact h.cons hv
  | bits ns =>
    obtain ⟨length, hall⟩ := bindBits_eq_ok hbind
    exact h.bindAll (by simpa using length) hall (readAll_singletons hv)

end

/-! Arguments and their values. -/

/-- R66 `defined_before_use`. -/
theorem findWire_eq_ok {env : WireEnv} {n : String} {ds : List Driver} :
    findWire env n = .ok ds ↔ env.lookup n = some ds := by
  unfold findWire
  cases env.lookup n <;> simp

/-- R65: the wires of a sub-bus. -/
theorem readAll_sub {f : Driver → Option Bit} {ds : List Driver} {v : List Bit} (h : readAll f ds = some v) (lo len : Nat) :
    readAll f ((ds.drop lo).take len) = some ((v.drop lo).take len) := by
  rw [readAll_eq_some] at h ⊢
  rw [List.map_take, List.map_drop, h, List.map_take, List.map_drop]

/-- R26: a constant bus carries itself. -/
theorem readAll_consts {ports cells : List (List Bit)} (bits : List Bit) :
    readAll (Driver.read id ports cells) (bits.map .const) = some bits :=
  readAll_eq_some.2 (by rw [List.map_map]; rfl)

section
variable {ports cells : List (List Bit)} {env : WireEnv} {values : ValueEnv} {made made' : List Instr}

/-- An argument without instances of its own. -/
theorem elaborated_in_place {ds : List Driver} {v : List Bit} {value : Option (List Bit)}
    (hcells : evalCells id Op.bits ports made [] = some cells) (hv : readAll (Driver.read id ports cells) ds = some v)
    (hvalue : value = some v) :
    ∃ more v, evalCells id Op.bits ports made [] = some (cells ++ more) ∧
      readAll (Driver.read id ports (cells ++ more)) ds = some v ∧ value = some v :=
  ⟨[], v, by rw [List.append_nil, hcells], by rw [List.append_nil, hv], hvalue⟩

/-- R66 `arity`, `width`: what `placeInst` makes. -/
theorem placeInst_eq_ok {op : Op} {args : List (List Driver)} {out : List Driver}
    (h : placeInst op made args = .ok (made', out)) :
    ∃ widths : args.map List.length = op.inputWidths, made' = made ++ [Instr.ofPorts op ⟨args, widths⟩] ∧
      out = (cellPins op.output.width made.length).drivers := by
  by_cases widths : args.map List.length = op.inputWidths
  · rw [placeInst_of_widths widths] at h
    cases h
    exact ⟨widths, rfl, rfl⟩
  · rw [placeInst, dif_neg widths] at h
    split at h <;> cases h

/-- R67: one more instance carries, on its output wires, its operation's function of the values of its arguments. -/
theorem evalOp_of_placeInst {op : Op} {args : List (List Driver)} {out : List Driver} {vs : List (List Bit)}
    (h : placeInst op made args = .ok (made', out)) (hcells : evalCells id Op.bits ports made [] = some cells)
    (hvs : readAll (readAll (Driver.read id ports cells)) args = some vs) :
    ∃ more v, evalCells id Op.bits ports made' [] = some (cells ++ more) ∧
      readAll (Driver.read id ports (cells ++ more)) out = some v ∧ evalOp op vs = some v := by
  obtain ⟨widths, rfl, rfl⟩ := placeInst_eq_ok h
  obtain ⟨hop, hargs⟩ := op_args_of_ofPorts op ⟨args, widths⟩
  have widths' : vs.map List.length = op.inputWidths := by rw [readAll_widths hvs, widths]
  have hout : evalOp op vs = some (op.fn ⟨vs, widths'⟩).bits := evalOp_eq_bits widths' rfl
  refine ⟨[(op.fn ⟨vs, widths'⟩).bits], _, ?_, readAll_cellPins ?_ (bits_length _), hout⟩
  · rw [evalCells_append hcells]
    exact evalCells_step (by rw [hargs]; exact hvs) (by rw [hop]; exact hout) rfl
  · rw [← evalCells_length hcells, List.getElem?_concat_length]

mutual

/-- R67: an argument's wires carry its value, and the instances nested in it have values. -/
theorem evalArg_of_elabArg (a : TextArg) {made made' : List Instr} {cells : List (List Bit)} {ds : List Driver}
    (h : elabArg env a made = .ok (made', ds)) (hcells : evalCells id Op.bits ports made [] = some cells)
    (henv : EnvCarries ports cells env values) :
    ∃ more v, evalCells id Op.bits ports made' [] = some (cells ++ more) ∧
      readAll (Driver.read id ports (cells ++ more)) ds = some v ∧ evalArg values a = some v := by
  cases a with
  | whole n =>
    rw [elabArg] at h
    split at h
    · rename_i ds hn
      cases h
      obtain ⟨v, hv, hvalue⟩ := henv n ds (findWire_eq_ok.1 hn)
      exact elaborated_in_place hcells hv (by rw [evalArg, hvalue])
    · cases h
  | bit n i =>
    rw [elabArg] at h
    split at h
    · rename_i ds hn
      split at h
      · rename_i d hi
        cases h
        obtain ⟨v, hv, hvalue⟩ := henv n ds (findWire_eq_ok.1 hn)
        obtain ⟨b, hb, hvi⟩ := readAll_getElem? hv hi
        exact elaborated_in_place hcells (readAll_cons_some hb rfl) (by simp only [evalArg, hvalue, hvi, Option.map_some])
      · cases h
    · cases h
  | sub n lo hi =>
    rw [elabArg] at h
    split at h
    · rename_i ds hn
      split at h
      · rename_i range
        cases h
        obtain ⟨v, hv, hvalue⟩ := henv n ds (findWire_eq_ok.1 hn)
        rw [← readAll_length hv] at range
        exact elaborated_in_place hcells (readAll_sub hv lo (hi - lo + 1)) (by simp only [evalArg, hvalue, if_pos range])
      · cases h
    · cases h
  | const b =>
    rw [elabArg] at h
    cases h
    exact elaborated_in_place hcells (readAll_consts [b]) (by rw [evalArg])
  | zero16 =>
    rw [elabArg] at h
    cases h
    exact elaborated_in_place hcells (readAll_consts (Bus.bits zero16)) (by rw [evalArg])
  | one16 =>
    rw [elabArg] at h
    cases h
    exact elaborated_in_place hcells (readAll_consts (Bus.bits one16)) (by rw [evalArg])
  | bus bits =>
    rw [elabArg] at h
    split at h
    · rename_i made₁ dss hargs
      split at h
      · cases h
        obtain ⟨more, vs, hmore, hvs, hvalues⟩ := evalArgs_of_elabArgs bits hargs hcells henv
        exact ⟨more, vs.flatten, hmore, readAll_flatten hvs, by rw [evalArg, hvalues]; rfl⟩
      · cases h
    · cases h
  | nested name args =>
    rw [elabArg] at h
    split at h
    · rename_i op hop
      split at h
      · rename_i made₁ dss hargs
        obtain ⟨more, vs, hmore, hvs, hvalues⟩ := evalArgs_of_elabArgs args hargs hcells henv
        obtain ⟨more', v, hmore', hv, hvalue⟩ := evalOp_of_placeInst h hmore hvs
        rw [List.append_assoc] at hmore' hv
        exact ⟨more ++ more', v, hmore', hv, by simp only [evalArg, hop, hvalues, hvalue]⟩
      · cases h
    · cases h

/-- R67: arguments, left to right. -/
theorem evalArgs_of_elabArgs (args : TextArgs) {made made' : List Instr} {cells : List (List Bit)} {dss : List (List Driver)}
    (h : elabArgs env args made = .ok (made', dss)) (hcells : evalCells id Op.bits ports made [] = some cells)
    (henv : EnvCarries ports cells env values) :
    ∃ more vs, evalCells id Op.bits ports made' [] = some (cells ++ more) ∧
      readAll (readAll (Driver.read id ports (cells ++ more))) dss = some vs ∧ evalArgs values args = some vs := by
  cases args with
  | nil =>
    rw [elabArgs] at h
    cases h
    exact ⟨[], [], by rw [List.append_nil, hcells], rfl, by rw [evalArgs]⟩
  | cons a rest =>
    rw [elabArgs] at h
    split at h
    · rename_i made₁ ds ha
      split at h
      · rename_i made₂ dss' hrest
        obtain ⟨more, v, hmore, hv, hvalue⟩ := evalArg_of_elabArg a ha hcells henv
        obtain ⟨more', vs, hmore', hvs, hvalues⟩ := evalArgs_of_elabArgs rest hrest hmore (henv.append more)
        cases h
        rw [List.append_assoc] at hmore' hvs
        refine ⟨more ++ more', v :: vs, hmore', readAll_cons_some ?_ hvs, by simp only [evalArgs, hvalue, hvalues]⟩
        rw [← List.append_assoc]
        exact readAll_append hv
      · cases h
    · cases h

end

/-! Lines, ports and the whole text. -/

/-- R67: a line's instances have values, and its names those of its expression. -/
theorem evalLine_of_elabLine {env' : WireEnv} {line : TextLine} (h : elabLine env made line = .ok (env', made'))
    (hcells : evalCells id Op.bits ports made [] = some cells) (henv : EnvCarries ports cells env values) :
    ∃ more v, evalCells id Op.bits ports made' [] = some (cells ++ more) ∧
      evalArg values (.nested line.op line.args) = some v ∧
      EnvCarries ports (cells ++ more) env' (bindValue values line.target v) := by
  rw [elabLine] at h
  split at h
  · rename_i made₁ out hout
    split at h
    · rename_i env₁ hbind
      cases h
      obtain ⟨more, v, hmore, hv, hvalue⟩ := evalArg_of_elabArg _ hout hcells henv
      exact ⟨more, v, hmore, hvalue, (henv.append more).bindTarget hv hbind⟩
    · cases h
  · cases h

theorem evalLines_of_elabLines {env' : WireEnv} {lines : List TextLine} (h : elabLines env made lines = .ok (env', made'))
    (hcells : evalCells id Op.bits ports made [] = some cells) (henv : EnvCarries ports cells env values) :
    ∃ cells' values', evalCells id Op.bits ports made' [] = some cells' ∧ evalLines values lines = some values' ∧
      EnvCarries ports cells' env' values' := by
  induction lines generalizing env made cells values with
  | nil =>
    cases h
    exact ⟨cells, values, hcells, rfl, henv⟩
  | cons line rest ih =>
    rw [elabLines] at h
    split at h
    · rename_i env₁ made₁ hline
      obtain ⟨more, v, hmore, hv, hnames⟩ := evalLine_of_elabLine hline hcells henv
      obtain ⟨cells', values', hcells', hvalues, hnames'⟩ := ih h hmore hnames
      exact ⟨cells', values', hcells', by rw [evalLines, hv]; exact hvalues, hnames'⟩
    · cases h

/-- The names of the input ports carry their values. -/
theorem envCarries_bindInputs {inputs : List TextPort} (h : bindInputs [] 0 inputs = .ok env)
    (widths : ports.map List.length = inputs.map fun port => port.width.toNat) :
    EnvCarries ports [] env ((inputs.map TextPort.name).zip ports) := by
  rw [bindInputs_eq, ← widths] at h
  have names := EnvCarries.bindAll (values := []) (fun n ds hn => by cases hn) ?_ h
    (readAll_portDrivers (const := id) (before := []) (lists := ports))
  · rwa [List.append_nil] at names
  · have lengths := congrArg List.length (widths.symm.trans (portDrivers_widths 0 (ports.map List.length)).symm)
    simpa using lengths

/-- R66 `outputs_bound`, `width`: the output ports carry the values of their names, and have their widths. -/
theorem read_of_elabOutputs {names : List String} {outputs : List TextPort} {outs : List OutPort}
    (h : elabOutputs env names outputs = .ok outs) (henv : EnvCarries ports cells env values) :
    (outs.map fun o => (o.name, o.drivers.length)) = (outputs.map fun p => (p.name, p.width.toNat)) ∧
    ∃ vs, readAll (fun o => readAll (Driver.read id ports cells) o.drivers) outs = some vs ∧
      readAll (fun p => values.lookup p.name) outputs = some vs := by
  induction outputs generalizing outs with
  | nil =>
    cases h
    exact ⟨rfl, [], rfl, rfl⟩
  | cons port rest ih =>
    rw [elabOutputs] at h
    split at h
    · cases h
    · split at h
      · cases h
      · split at h
        · cases h
        · rename_i ds hds
          split at h
          · rename_i width
            split at h
            · rename_i outs hrest
              cases h
              obtain ⟨ports, vs, houts, hvalues⟩ := ih hrest
              obtain ⟨v, hv, hvalue⟩ := henv port.name ds hds
              exact ⟨by simp [ports, width], v :: vs, readAll_cons_some hv houts, readAll_cons_some hvalue hvalues⟩
            · cases h
          · cases h

end

/-- R66: the parts of the netlist that a text denotes. -/
theorem elaborate_eq_ok {t : TextNetlist} {n : Netlist} (h : elaborate t = .ok n) :
    ∃ env env', bindInputs [] 0 t.inputs = .ok env ∧ elabLines env [] t.lines = .ok (env', n.insts) ∧
      elabOutputs env' (t.inputs.map TextPort.name) t.outputs = .ok n.outputs ∧ n.inputs = t.inputs.map TextPort.toPort := by
  rw [elaborate] at h
  split at h
  · rename_i env hinputs
    split at h
    · rename_i env' insts hlines
      split at h
      · rename_i outs houts
        cases h
        exact ⟨env, env', hinputs, hlines, houts, rfl⟩
      · cases h
    · cases h
  · cases h

/-- R67: for any values of the input ports, the instances of the netlist that a text denotes have values, on which its output
ports carry what the text's lines give. -/
theorem values_of_elaborate {t : TextNetlist} {n : Netlist} (h : elaborate t = .ok n) (ports : Ports Bit t.inputWidths) :
    (n.outputs.map fun o => (o.name, o.drivers.length)) = (t.outputs.map fun p => (p.name, p.width.toNat)) ∧
    ∃ cells outs, evalCells id Op.bits ports.lists n.insts [] = some cells ∧
      readAll (fun o => readAll (Driver.read id ports.lists cells) o.drivers) n.outputs = some outs ∧
      evalText t ports = some outs := by
  obtain ⟨env, env', hinputs, hlines, houts, -⟩ := elaborate_eq_ok h
  obtain ⟨cells, values, hcells, hvalues, names⟩ :=
    evalLines_of_elabLines hlines rfl (envCarries_bindInputs hinputs ports.widths)
  obtain ⟨shape, outs, hread, hlookup⟩ := read_of_elabOutputs houts names
  have passes : t.wellFormed = true := by rw [TextNetlist.wellFormed, h]
  exact ⟨shape, cells, outs, hcells, hread, by simp only [evalText, passes, if_true, hvalues, hlookup]⟩

/-- Settles O58: with some values on the input ports the instances and the output ports have values (`values_of_elaborate`),
so every driver exists and stands earlier. -/
theorem checkedTextsDenoteNetlists : Obligations.CheckedTextsDenoteNetlists := by
  intro t n h
  obtain ⟨shape, cells, outs, hcells, hread, -⟩ := values_of_elaborate h (Ports.ofFn _ fun _ => false)
  obtain ⟨-, -, -, -, -, inputs⟩ := elaborate_eq_ok h
  refine ⟨?_, inputs, shape⟩
  have ports : t.inputWidths = n.inputWidths := by
    rw [Netlist.inputWidths, inputs, List.map_map]
    rfl
  obtain ⟨wfInsts, widths⟩ := wellFormed_of_evalCells
    (fun op args out h => by rw [← Option.some.inj h]; exact bits_length _) hcells
  rw [Ports.widths, ports] at wfInsts
  refine Bool.and_eq_true_iff.2 ⟨wfInsts, List.all_eq_true.2 fun o ho => ?_⟩
  have reads := readAll_isSome.1 (Option.isSome_of_eq_some hread) o ho
  obtain ⟨v, hv⟩ := Option.isSome_iff_exists.1 reads
  have wfOut := wellFormed_of_readAll hv
  rwa [Ports.widths, ports, widths] at wfOut

/-- Settles O59: the lines give what the netlist's output ports carry (`values_of_elaborate`); a text that a check refuses is not
evaluated. -/
theorem textMeaningIsNetlistValue : Obligations.TextMeaningIsNetlistValue := by
  refine ⟨fun t n ports same h lists => ?_, fun t ports c h => ?_⟩
  · obtain ⟨-, cells, outs, hcells, hread, htext⟩ := values_of_elaborate h ports
    exact ⟨outs, htext, by simp only [Netlist.eval, Netlist.evalWith, ← lists, hcells, hread]⟩
  · have fails : t.wellFormed = false := by rw [TextNetlist.wellFormed, h]
    rw [evalText, fails]
    rfl

end Sys2Proof
end

