-- ==== Sys2Proof/Proofs/DerivedValues.lean ====
section
/-! What the spec derives about values: the bit order and the integer boundary (20_memory.md), the operations with a selector
(42_l2_wide_and_fanout.md), and the arithmetic laws (44_laws_and_structure.md). -/

namespace Sys2Proof

/-! Numbers and buses. -/

/-- R43: the number below an index is the sum over the indices below it. -/
theorem decodeBelow_eq_sum {n : Nat} (v : Bus n) (k : Nat) :
    decodeBelow v k = ((List.range k).map fun i => (Bus.at v i).toNat * 2 ^ i).sum := by
  induction k with
  | zero => rfl
  | succ k ih => rw [decodeBelow, ih, List.range_succ]; simp

/-- R42, R43: a bus is the encoding of its number. -/
theorem encodeNat_decodeNat {n : Nat} (v : Bus n) : encodeNat n (decodeNat v) = v := by
  rw [encodeNat_eq_ofNat, decodeNat_eq_toNat, BitVec.ofNat_toNat, BitVec.setWidth_eq]

/-- R42: the Bit at an index of an encoding, as a number. -/
theorem toNat_at_encodeNat {n u i : Nat} (hi : i < n) : (Bus.at (encodeNat n u) i).toNat = u / 2 ^ i % 2 := by
  rw [encodeNat, at_build_of_lt hi]
  rcases Nat.mod_two_eq_zero_or_one (u / 2 ^ i) with h | h <;> rw [h] <;> rfl

/-- Settles O21: the number of a bus is a sum of powers (`decodeBelow_eq_sum`), and both ways round the conversions are inverse
(`encodeNat_decodeNat`, `decodeNat_encodeNat`). -/
theorem encodeAndDecodeAreInverse : Obligations.EncodeAndDecodeAreInverse := by
  refine fun n => ⟨fun v => ⟨decodeBelow_eq_sum v n, ?_, encodeNat_decodeNat v⟩, fun u hu => ⟨?_, fun i => toNat_at_encodeNat⟩⟩
  · rw [decodeNat_eq_toNat]
    exact v.isLt
  · rw [decodeNat_encodeNat, Nat.mod_eq_of_lt hu]

/-! Selectors. -/

/-- R44: the selector value of two Bits. -/
theorem selectorValue_bits2 (sel : Bits2) : selectorValue sel = (Bus.at sel 0).toNat + 2 * (Bus.at sel 1).toNat := by
  simp only [selectorValue, decodeNat, decodeBelow]
  ring

/-- R44: the selector value of three Bits. -/
theorem selectorValue_bits3 (sel : Bits3) :
    selectorValue sel = (Bus.at sel 0).toNat + 2 * (Bus.at sel 1).toNat + 4 * (Bus.at sel 2).toNat := by
  simp only [selectorValue, decodeNat, decodeBelow]
  ring

/-- R44: every pattern of a selector has a value of its width. -/
theorem selectorValue_lt {n : Nat} (sel : Bus n) : selectorValue sel < 2 ^ n := by
  rw [selectorValue, decodeNat_eq_toNat]
  exact sel.isLt

/-- R44: every number of the width is a selector value. -/
theorem selectorValue_encodeNat {n k : Nat} (hk : k < 2 ^ n) : selectorValue (encodeNat n k) = k := by
  rw [selectorValue, decodeNat_encodeNat, Nat.mod_eq_of_lt hk]

/-- R11: the low two Bits of a selector of three. -/
theorem at_sub2 (sel : Bits3) : Bus.at (Bus.sub sel 0 2) 0 = Bus.at sel 0 ∧ Bus.at (Bus.sub sel 0 2) 1 = Bus.at sel 1 :=
  ⟨at_build_of_lt (by decide), at_build_of_lt (by decide)⟩

/-- R106: `mux4way16` gives the input whose number the selector has. -/
theorem gate_mux4way16_selects (a b c d : Bits16) (sel : Bits2) :
    [a, b, c, d][selectorValue sel]? = some (Gate.mux4way16 a b c d sel) := by
  rw [selectorValue_bits2]
  exact gate_mux4way16_getElem? a b c d sel

/-- R107: `mux8way16` gives the input whose number the selector has: its low two Bits pick one of each four
(`gate_mux4way16_selects`), the third one of these. -/
theorem gate_mux8way16_selects (a b c d e f g h : Bits16) (sel : Bits3) :
    [a, b, c, d, e, f, g, h][selectorValue sel]? = some (Gate.mux8way16 a b c d e f g h sel) := by
  have low := selectorValue_lt (Bus.sub sel 0 2)
  have first := gate_mux4way16_selects a b c d (Bus.sub sel 0 2)
  have second := gate_mux4way16_selects e f g h (Bus.sub sel 0 2)
  have value : selectorValue sel = selectorValue (Bus.sub sel 0 2) + 4 * (Bus.at sel 2).toNat := by
    rw [selectorValue_bits3, selectorValue_bits2, (at_sub2 sel).1, (at_sub2 sel).2]
  rw [value, Gate.mux8way16, gate_mux16]
  cases Bus.at sel 2 with
  | false => exact (List.getElem?_append_left (l₂ := [e, f, g, h]) low).trans first
  | true =>
    refine (List.getElem?_append_right (l₁ := [a, b, c, d]) (Nat.le_add_left 4 _)).trans ?_
    exact (congrArg ([e, f, g, h][·]?) (Nat.add_sub_cancel _ 4)).trans second

/-- R108: branch `j` of `dmux4way` is `x` where the selector has the value `j`, else `0`. -/
theorem gate_dmux4way_eq_build (x : Bit) (sel : Bits2) :
    Gate.dmux4way x sel = Bus.build 4 fun j => if j = selectorValue sel then x else false := by
  refine bits_inj ?_
  rw [gate_dmux4way_bits, bits_build, selectorValue_bits2]
  simp only [gate_and, gate_not]
  cases Bus.at sel 0 <;> cases Bus.at sel 1 <;> rfl

/-- R109: branch `j` of `dmux8way` is `x` where the selector has the value `j`, else `0`. -/
theorem gate_dmux8way_eq_build (x : Bit) (sel : Bits3) :
    Gate.dmux8way x sel = Bus.build 8 fun j => if j = selectorValue sel then x else false := by
  refine bits_inj ?_
  rw [gate_dmux8way_bits, gate_dmux4way_bits, gate_dmux4way_bits, (at_sub2 sel).1, (at_sub2 sel).2, bits_build,
    selectorValue_bits3]
  simp only [gate_and, gate_not]
  cases Bus.at sel 0 <;> cases Bus.at sel 1 <;> cases Bus.at sel 2 <;> rfl

theorem at_gate_dmux4way (x : Bit) (sel : Bits2) {j : Nat} (hj : j < 4) :
    Bus.at (Gate.dmux4way x sel) j = if j = selectorValue sel then x else false := by
  rw [gate_dmux4way_eq_build, at_build_of_lt hj]

theorem at_gate_dmux8way (x : Bit) (sel : Bits3) {j : Nat} (hj : j < 8) :
    Bus.at (Gate.dmux8way x sel) j = if j = selectorValue sel then x else false := by
  rw [gate_dmux8way_eq_build, at_build_of_lt hj]

open Machine

/-- Settles O9: the instance completes with the gate's value (`exec_mux8way16`), which is the selected input
(`gate_mux8way16_selects`); the tree is the gate's definition. -/
theorem mux8way16Operation : Obligations.Mux8way16Operation := by
  refine ⟨fun s a b c d e f g h sel va vb vc vd ve vf vg vh k ha hb hc hd he hf hg hh hsel => ?_,
    fun _ _ _ _ _ _ _ _ _ => rfl⟩
  refine ⟨Gate.mux8way16 va vb vc vd ve vf vg vh k, ?_, exec_mux8way16 ha hb hc hd he hf hg hh hsel⟩
  rw [← selectorValue_bits3]
  exact gate_mux8way16_selects va vb vc vd ve vf vg vh k

/-- Settles O10: each instance completes with its gate's value (`exec_dmux4way`, `exec_dmux8way`), which routes
(`gate_dmux4way_eq_build`, `gate_dmux8way_eq_build`). -/
theorem dmuxTreesRouteToTheSelectedBranch : Obligations.DmuxTreesRouteToTheSelectedBranch := by
  refine ⟨fun s x sel v k hx hsel => ?_, fun s x sel v k hx hsel => ?_⟩
  · rw [exec_dmux4way hx hsel, gate_dmux4way_eq_build, selectorValue_bits2]
  · rw [exec_dmux8way hx hsel, gate_dmux8way_eq_build, selectorValue_bits3]

/-- Settles O22: the pattern of a number is its encoding (`selectorValue_encodeNat`). -/
theorem everySelectorPatternSelects : Obligations.EverySelectorPatternSelects := by
  refine ⟨fun v w => ⟨gate_mux v w false, gate_mux v w true⟩, fun v w => ⟨gate_mux16 v w false, gate_mux16 v w true⟩,
    fun v => ⟨gate_dmux_bits v false, gate_dmux_bits v true⟩, fun k hk => ?_, fun k hk => ?_, selectorValue_lt,
    selectorValue_lt⟩
  · have value := selectorValue_encodeNat (n := 2) hk
    refine ⟨encodeNat 2 k, value, fun a b c d => ?_, fun v j hj => ?_⟩
    · rw [← gate_mux4way16_selects, value]
    · rw [at_gate_dmux4way v _ hj, value]
  · have value := selectorValue_encodeNat (n := 3) hk
    refine ⟨encodeNat 3 k, value, fun a b c d e f g h => ?_, fun v j hj => ?_⟩
    · rw [← gate_mux8way16_selects, value]
    · rw [at_gate_dmux8way v _ hj, value]

/-- R105, R109: the one branch that may be `1` is the selected one. -/
theorem gate_or8way_dmux8way (x : Bit) (sel : Bits3) : Gate.or8way (Gate.dmux8way x sel) = x := by
  have selected := at_gate_dmux8way x sel (selectorValue_lt sel)
  rw [if_pos rfl] at selected
  have all_low : Gate.or8way (Gate.dmux8way x sel) = false ↔ x = false := by
    rw [gate_or8way_eq_false_iff]
    constructor
    · intro h
      rw [← selected, h _ (selectorValue_lt sel)]
    · rintro rfl j hj
      rw [at_gate_dmux8way false sel hj, ite_self]
  cases x <;> simp_all

/-- Settles O23: the multiplexer gives the word that its selector names, which carries the selected branch. -/
theorem demultiplexersMirrorMultiplexers : Obligations.DemultiplexersMirrorMultiplexers := by
  refine ⟨gate_or8way_dmux8way, fun x sel lane _ a b c d branches => ?_,
    fun x sel lane _ a b c d e f g h branches => ?_⟩
  · rw [branches _ _ (gate_mux4way16_selects a b c d sel), at_gate_dmux4way x sel (selectorValue_lt sel), if_pos rfl]
  · rw [branches _ _ (gate_mux8way16_selects a b c d e f g h sel), at_gate_dmux8way x sel (selectorValue_lt sel),
      if_pos rfl]

/-! Arithmetic. -/

/-- R137: the two's-complement reading is core's. -/
theorem sdecode_eq_toInt (v : Bits16) : sdecode v = v.toInt := by
  rw [sdecode, decodeNat_eq_toNat, BitVec.toInt_eq_msb_cond, BitVec.msb_eq_getLsbD_last]
  rfl

/-- Settles O18: core's signed sum is the sum, balanced modulo 65536. -/
theorem additionReadAsTwosComplement : Obligations.AdditionReadAsTwosComplement := by
  intro a b
  simp only [sdecode_eq_toInt, gate_add16, BitVec.toInt_add]
  exact ⟨Int.emod_eq_emod_iff_emod_sub_eq_zero.1 Int.bmod_emod, fun low high => Int.bmod_eq_of_le (by omega) (by omega)⟩

/-- R138: increments add up. -/
theorem iterate_gate_inc16 (k : Nat) (a : Bits16) : Gate.inc16^[k] a = a + BitVec.ofNat 16 k := by
  induction k with
  | zero => exact (BitVec.add_zero a).symm
  | succ k ih => rw [Function.iterate_succ_apply', ih, gate_inc16, BitVec.add_assoc, BitVec.ofNat_add]

/-- Settles O19: the laws are those of core's addition, `inc16` adding `1` and `not16` being the complement. -/
theorem additionIsACommutativeGroup : Obligations.AdditionIsACommutativeGroup := by
  refine ⟨fun a => ⟨gate_add16_zero16 a, ?_⟩, gate_add16_comm, fun a b c => ?_, fun a => ?_, fun a => ?_⟩
  · rw [gate_add16_comm, gate_add16_zero16]
  · simp only [gate_add16, BitVec.add_assoc]
  · rw [iterate_gate_inc16]
    exact BitVec.add_zero a
  · rw [gate_inc16, gate_not16, ← BitVec.neg_eq_not_add, gate_add16, BitVec.add_right_neg, zero16_eq]

/-- R101: the number of the complement. -/
theorem decodeNat_gate_not16 (v : Bits16) : decodeNat (Gate.not16 v) = 65535 - decodeNat v := by
  rw [gate_not16, decodeNat_eq_toNat, decodeNat_eq_toNat, BitVec.toNat_not]

/-- R24: the number of a two-bit result. -/
theorem decodeNat_bits2 (a b : Bit) : decodeNat (Bus.lit [a, b]) = a.toNat + 2 * b.toNat :=
  (selectorValue_bits2 (Bus.lit [a, b])).trans (by simp only [at_lit]; rfl)

/-- R125: the carry that `add16` discards is what the word lacks of the sum. -/
theorem decodeNat_gate_add16_carry (v w : Bits16) :
    decodeNat (Gate.add16 v w) + 65536 * (Gate.ripple v w 16).2.toNat = decodeNat v + decodeNat w := by
  have sum := ripple_sum v w 16
  rw [Nat.mod_eq_of_lt v.isLt, Nat.mod_eq_of_lt w.isLt] at sum
  simp only [decodeNat_eq_toNat]
  exact sum

/-- R87: one branch carries the input, the other nothing. -/
theorem gate_or_dmux (v k : Bit) : Gate.or (Bus.at (Gate.dmux v k) 0) (Bus.at (Gate.dmux v k) 1) = v := by
  simp only [Gate.dmux, at_lit, gate_or, gate_and, gate_not]
  cases k <;> simp

/-- R82 to R85: the corner cases with a constant or equal inputs, from the tables. -/
theorem scalar_corner_cases (x : Bit) :
    Gate.and x x = x ∧ Gate.and x false = false ∧ Gate.and x true = x ∧ Gate.or x x = x ∧ Gate.or x false = x ∧
      Gate.or x true = true ∧ Gate.nor x x = Gate.not x ∧ Gate.xor x x = false ∧ Gate.xor x false = x ∧
      Gate.xor x true = Gate.not x := by
  cases x <;> decide

/-- Settles O15: symmetry and corner cases from the tables of the gates; two-bit results count the ones of their inputs
(`gate_halfAdder_count`, `gate_fullAdder_count`), and the ripple keeps the sum with its carry (`ripple_sum`). -/
theorem derivedFactsOfTheGates : Obligations.DerivedFactsOfTheGates := by
  refine ⟨fun x y => ⟨?_, ?_, gate_xor_comm x y⟩, scalar_corner_cases, gate_or_dmux, decodeNat_gate_not16,
    fun x y z => ⟨?_, ?_⟩, decodeNat_gate_add16_carry⟩
  · rw [gate_nand, gate_nand, Bool.and_comm]
  · rw [gate_nor, gate_nor, Bool.or_comm]
  · exact (decodeNat_bits2 _ _).trans (gate_halfAdder_count x y)
  · exact (decodeNat_bits2 _ _).trans (gate_fullAdder_count x y z)

end Sys2Proof
end
